-- ==== Sys2Proof/Word.lean ====
section
/-!
DEFINITION. The word types of the block: units, symbols and bit sequences (spec/00_scope.md R10, R12, R18).
The arithmetic over them (bits_n, val, byte packing) stands in Machine/Operands.lean.
-/

namespace Sys2Proof

/-- One unit of the original data, UNIT_W = 8 bits (R10); also one byte of a stream, and the command word (R75). -/
abbrev Byte := BitVec 8

/-- A leaf value: SYM_W = 9 bits, 0 to 511 (R10, R28, R82). Symbols proper are 0 to 256. -/
abbrev Symbol := BitVec 9

/-- A bit sequence, the first bit at the head (R12); `true` is the bit 1. -/
abbrev Bits := List Bool

/-- `EOS`, the end-of-stream symbol, value 256 (R10). -/
abbrev eos : Symbol := 256#9

/-- `NODE_CAP`, the most nodes a stored tree may have (R11). -/
abbrev nodeCap : Nat := 513

/-- The frequency table's stored entries `FREQ[0..255]` (R25); entry 256 is hardwired and is not stored (R26). -/
abbrev FreqTable := Vector Nat 256

/-- The code table `CODE[0..256]`: each entry absent, or a bit sequence (R34). -/
abbrev CodeTable := Vector (Option Bits) 257

end Sys2Proof
end

