-- ==== Sys2Proof/Config.lean ====
section
/-!
DEFINITION. What is fixed for the life of the block and is not state (spec/00_scope.md R11, spec/70_reset_and_hazards.md
R237): the four open parameters of the spec. Each of the block's own values is an opaque constant, so that whatever is
proved of the block is proved for every value. Every operation that uses a parameter takes `Params`, so that it can also
be run at the spec's default values.
-/

namespace Sys2Proof.Config

/-- One decision of `TIE_POLICY` at one merge: which of the lowest-weight nodes is removed first, which of the
lowest-weight nodes of the rest is removed second (each an index, taken modulo how many there are), and whether the
second becomes the left child (R110, R111). -/
structure TieChoice where
  first  : Nat
  second : Nat
  swap   : Bool
  deriving DecidableEq, Repr, Inhabited

/-- The open parameters (R11). -/
structure Params where
  /-- `MAGIC`, the 32-bit constant that identifies the format (R80). -/
  magic : BitVec 32
  /-- `PAD_BIT`, the bit `close()` pads with (R60). -/
  padBit : Bool
  /-- `COUNT_W` less 1, since `COUNT_W` is a positive integer (R11, R25). -/
  countWLess1 : Nat
  /-- `TIE_POLICY`, as the decision it takes on a frequency table at its k-th merge (R113). A decision only picks among
  the choices the relation `Huff` allows, so no policy outside `Huff` can be given (93 U19). -/
  tie : FreqTable → Nat → TieChoice

/-- `COUNT_W`, the width of a count in bits (R11). -/
def Params.countW (p : Params) : Nat := p.countWLess1 + 1

/-- The largest count, at which FCOUNT saturates (R102). -/
def Params.maxCount (p : Params) : Nat := 2 ^ p.countW - 1

/-- The spec's default values (R11, R114), for executing the operations in tests: `MAGIC = 0xFACE8201`, `PAD_BIT = 0`,
`COUNT_W = 32`, and the earliest inserted node of lowest weight first, the first removed being the left child.
The block's own values are `Config.params`, not these. -/
def defaults : Params where
  magic := 0xFACE8201#32
  padBit := false
  countWLess1 := 31
  tie := fun _ _ => ⟨0, 0, false⟩

/-- The block's `MAGIC` (DESIGN CHOICE, log entry 1: an opaque constant, safe). -/
opaque magic : BitVec 32

/-- The block's `PAD_BIT` (DESIGN CHOICE, log entry 3: an opaque constant, safe). -/
opaque padBit : Bool

/-- The block's `COUNT_W`, less 1 (DESIGN CHOICE, log entry 3: an opaque constant, safe). -/
opaque countWLess1 : Nat

/-- The block's `TIE_POLICY` (DESIGN CHOICE, log entry 2: an opaque constant, safe). -/
opaque tie : FreqTable → Nat → TieChoice

/-- The block's parameters. -/
def params : Params where
  magic := magic
  padBit := padBit
  countWLess1 := countWLess1
  tie := tie

end Sys2Proof.Config
end

