-- ==== Sys2Proof/Syntax.lean ====
section
/-!
DEFINITION. The command set: one constructor per row of spec/opcode_table.json (spec/30_encoding.md R76).
Commands have no operand fields (R75).
-/

namespace Sys2Proof

/-- The fifteen commands. -/
inductive Instr where
  /-- do nothing (R186) -/
  | nop
  /-- count symbol frequencies from RD into FREQ (R101) -/
  | fcount
  /-- build TREE from FREQ (R112) -/
  | tbuild
  /-- derive CODE from TREE (R131) -/
  | ctgen
  /-- write TREE to WR as a header (R141) -/
  | tenc
  /-- read a header from RD into TREE (R150) -/
  | tdec
  /-- encode the units of RD to WR through CODE (R161) -/
  | penc
  /-- decode the bits of RD to WR through TREE (R171) -/
  | pdec
  /-- write the magic number to WR (R187) -/
  | wmagic
  /-- read and check the magic number from RD (R188) -/
  | cmagic
  /-- rewind RD (R190) -/
  | rewind
  /-- close WR (R191) -/
  | close
  /-- the whole compression control flow (R197) -/
  | compress
  /-- the whole decompression control flow (R199) -/
  | decompress
  /-- clear the error and return the block to its reset state (R195) -/
  | clear
  deriving DecidableEq, Repr

end Sys2Proof
end

