-- ==== Sys2Proof/WellFormed.lean ====
section
/-!
DEFINITION. Which terms are legal commands. A command has no operand (spec/30_encoding.md R75), so every `Instr` is
well formed; what can be ill formed is a command WORD (R75, R77).
-/

namespace Sys2Proof

/-- Every command is well formed: there are no operand fields, register fields, immediates or mode bits to check (R75). -/
def Instr.wellFormed (_ : Instr) : Bool := true

/-- The reserved field 7:4 of a command word is 0000 (R75). -/
def reservedBitsClear (c : Byte) : Bool := c.extractLsb' 4 4 == 0#4

/-- The operation number 3:0 is one of the table's, 0 to 14 (R76, R77). -/
def operationExists (c : Byte) : Bool := c.extractLsb' 0 4 != 15#4

/-- The words that are commands: 240 words with a nonzero high nibble and the word 0x0F are not (R77). -/
def commandWordWellFormed (c : Byte) : Bool := reservedBitsClear c && operationExists c

end Sys2Proof
end

