-- ==== Sys2Proof/Decode.lean ====
section
/-!
DEFINITION. The command decoder, total on the 256 words (spec/30_encoding.md R76 to R78), and after it the encoder,
written from the `match` column of R76.
-/

namespace Sys2Proof

/-- Why a word is no command (R77). Either way IllegalCommandError is raised, unless ERR is set (R77, R217). -/
inductive IllegalWord where
  /-- the reserved field 7:4 is not 0000 -/
  | reservedBits
  /-- the operation number is 15 -/
  | reservedOperation
  deriving DecidableEq, Repr

/-- The command that operation number `op` selects (R76); 15 selects none (R77). -/
def decodeOperation (op : Nat) : Except IllegalWord Instr :=
  match op with
  | 0 => .ok .nop
  | 1 => .ok .fcount
  | 2 => .ok .tbuild
  | 3 => .ok .ctgen
  | 4 => .ok .tenc
  | 5 => .ok .tdec
  | 6 => .ok .penc
  | 7 => .ok .pdec
  | 8 => .ok .wmagic
  | 9 => .ok .cmagic
  | 10 => .ok .rewind
  | 11 => .ok .close
  | 12 => .ok .compress
  | 13 => .ok .decompress
  | 14 => .ok .clear
  | _ => .error .reservedOperation

/-- The decoder: a word selects the command whose number is `c[3:0]`, provided `c[7:4] = 0000` (R76, R77). -/
def decode (c : Byte) : Except IllegalWord Instr :=
  if c.extractLsb' 4 4 = 0#4 then decodeOperation (c.extractLsb' 0 4).toNat else .error .reservedBits

/-- The one word of a command (R76, column `match`). -/
def encode (i : Instr) : Byte :=
  match i with
  | .nop => 0x00#8
  | .fcount => 0x01#8
  | .tbuild => 0x02#8
  | .ctgen => 0x03#8
  | .tenc => 0x04#8
  | .tdec => 0x05#8
  | .penc => 0x06#8
  | .pdec => 0x07#8
  | .wmagic => 0x08#8
  | .cmagic => 0x09#8
  | .rewind => 0x0A#8
  | .close => 0x0B#8
  | .compress => 0x0C#8
  | .decompress => 0x0D#8
  | .clear => 0x0E#8

/-- The command word whose low `nbits` bits are those of `w`, every higher bit 0. -/
def tableWord (nbits w : Nat) : Byte := BitVec.ofNat 8 (w % 2 ^ nbits)

/-- What the decoder reads from the word the opcode table numbers `w`; none where it refuses. -/
def decodeTableWord (nbits w : Nat) : Option Instr :=
  match decode (tableWord nbits w) with
  | .ok i => some i
  | .error _ => none

end Sys2Proof
end

