-- ==== Sys2Proof/Machine/State.lean ====
section
/-!
DEFINITION. The block's state as plain data: the whole tuple of spec/10_state.md R20, the two ports of
spec/20_memory.md, and the host's side (what it still has to do, and what its last read returned). State.reset is the
state after reset (R46).
-/

namespace Sys2Proof.Machine

/-- A prefix-code tree (R28). A leaf owns a symbol and a weight; an internal node owns two children and a weight, and
has no symbol (R28, 93 U3). Weights are naturals: no sum can overflow `WEIGHT_W` bits (R117). -/
inductive HuffTree where
  | leaf (sym : Symbol) (weight : Nat)
  | node (weight : Nat) (left right : HuffTree)
  deriving DecidableEq, Repr

/-- `TREE_SRC` (R29, R38): which command made TREE. -/
inductive TreeSrc where
  /-- 0: made by TBUILD, weights are the counts and their sums -/
  | tbuild
  /-- 1: made by TDEC, every weight is 0 -/
  | tdec
  deriving DecidableEq, Repr

/-- The errors a command can end with (R211). They are taken as a next state, never as a stop (R216). -/
inductive Error where
  /-- 1: the magic number is missing or wrong -/
  | format
  /-- 2: RD exhausted while reconstructing the tree -/
  | truncatedHeader
  /-- 3: RD exhausted while decoding, the sentinel not reached -/
  | truncatedPayload
  /-- 4: a precondition on TREE_VALID, CODE_VALID or WR.closed does not hold -/
  | sequence
  /-- 5: a header needs more than NODE_CAP nodes -/
  | capacity
  /-- 6: a tree that CTGEN or PDEC cannot use -/
  | illFormedTree
  /-- 7: PENC found no code for a unit or for the sentinel -/
  | noCode
  /-- 8: the word written to CMD is no command -/
  | illegalCommand
  deriving DecidableEq, Repr

/-- Who raises an error, as far as error entry distinguishes it (R216). -/
inductive Raiser where
  /-- TDEC, alone or inside DECOMPRESS -/
  | tdec
  /-- CTGEN -/
  | ctgen
  /-- every other command, and the command decoder -/
  | other
  deriving DecidableEq, Repr

/-- The read port RD (R51): the attached bit sequence and how many bits of it are consumed. -/
structure ReadPort where
  bits : Bits
  pos  : Nat
  deriving DecidableEq, Repr

/-- The write port WR (R58): everything written since it was attached, and whether it is closed. -/
structure WritePort where
  bits   : Bits
  closed : Bool
  deriving DecidableEq, Repr

/-- What the host can read (R41), and the bytes WR has given its underlying stream (R61). -/
inductive Element where
  | cmd
  | status
  | errcode
  | freq (s : Fin 257)
  | tree
  | code (s : Fin 257)
  | written
  deriving DecidableEq, Repr

/-- What a host read returns. -/
inductive HostValue where
  | word (v : Byte)
  | count (n : Nat)
  | tree (t : HuffTree)
  | code (c : Option Bits)
  | bytes (b : List Byte)
  deriving DecidableEq, Repr

/-- The host's actions between commands that are not commands (R91). -/
inductive HostAccess where
  /-- `attach RD`: a new underlying byte sequence (R53) -/
  | attachRd (bytes : List Byte)
  /-- `attach WR`: a new, empty underlying stream (R62) -/
  | attachWr
  /-- `freq[s] = v` (R25, R26) -/
  | writeFreq (s : Fin 257) (v : Nat)
  /-- a write to the read-only register STATUS (R38) -/
  | writeStatus (v : Byte)
  /-- a write to the read-only register ERRCODE (R39) -/
  | writeErrcode (v : Byte)
  /-- `read` of an element (R41) -/
  | read (e : Element)
  /-- `reset` (R46, R235) -/
  | reset
  deriving DecidableEq, Repr

/-- One action of the host: a word written to CMD (R37), or another access. -/
inductive HostAction where
  | cmd (word : Byte)
  | access (a : HostAccess)
  deriving DecidableEq, Repr

/-- The host's side, the model's own and not the block's (DESIGN CHOICE, log entry 6, safe): the script of actions still to come, the next
at the head, and what the last read returned (none: nothing). -/
structure HostSide where
  script : List HostAction
  reply  : Option HostValue
  deriving DecidableEq, Repr

/-- The complete state (R20), with the host's side beside it. -/
structure State where
  /-- `ERR`, sticky (R38) -/
  err       : Bool
  /-- `ERRCODE[3:0]`, the code of the first error since CLEAR or reset (R39) -/
  errcode   : BitVec 4
  /-- `TREE_VALID` (R38) -/
  treeValid : Bool
  /-- `TREE_SRC` (R38) -/
  treeSrc   : TreeSrc
  /-- `CODE_VALID` (R38) -/
  codeValid : Bool
  /-- `FREQ[0..255]` (R25) -/
  freq      : FreqTable
  /-- `TREE` (R28), meaningful while TREE_VALID is set (R29) -/
  tree      : HuffTree
  /-- `CODE[0..256]` (R34), meaningful while CODE_VALID is set (R35) -/
  code      : CodeTable
  /-- `CUR`, PDEC's current node of TREE, held as the subtree it stands on (R23) -/
  cur       : HuffTree
  /-- the read port (R51) -/
  rd        : ReadPort
  /-- the write port (R58) -/
  wr        : WritePort
  /-- the host's side (log entry 6) -/
  host      : HostSide
  deriving DecidableEq, Repr

/-- Reasons a step can stop with a fault: none. Every exception of the block is an error, which a command takes as a
next state (R216), and the spec names no event that stops the block (70 R252). Nobody raises one: safe. -/
inductive Fault where
  deriving DecidableEq, Repr

/-- Reasons a step can be refused. -/
inductive Refusal where
  /-- Raised by an arm of exec for an instruction that has no meaning yet; no arm does. Safe: it stops the run. -/
  | notModelled (mnemonic : String)
  deriving DecidableEq, Repr

/-- The machine right after reset (R46): flags and ERRCODE 0, FREQ[0..255] 0, every CODE entry absent. TREE and CUR are
unspecified and unread (R46): the value here is the model's (DESIGN CHOICE, log entry 5, unsafe). Reset leaves the ports
alone (R63): no stream is attached yet, WR is empty and open (DESIGN CHOICE, log entry 4, unsafe). The host has no
action pending (DESIGN CHOICE, log entry 6). -/
def State.reset : State where
  err := false
  errcode := 0#4
  treeValid := false
  treeSrc := .tbuild
  codeValid := false
  freq := Vector.replicate 256 0
  tree := .leaf 0#9 0
  code := Vector.replicate 257 none
  cur := .leaf 0#9 0
  rd := { bits := [], pos := 0 }
  wr := { bits := [], closed := false }
  host := { script := [], reply := none }

end Sys2Proof.Machine
end

