-- ==== Sys2Proof/Machine/Flags.lean ====
section
/-!
DEFINITION. The status register, the error register and the error codes (spec/10_state.md R37 to R40,
spec/60_exceptions.md R211). The block has no condition codes (R40).
-/

namespace Sys2Proof.Machine

/-- `code(E)`, the value ERRCODE[3:0] takes (R211). -/
def Error.code (e : Error) : BitVec 4 :=
  match e with
  | .format => 1#4
  | .truncatedHeader => 2#4
  | .truncatedPayload => 3#4
  | .sequence => 4#4
  | .capacity => 5#4
  | .illFormedTree => 6#4
  | .noCode => 7#4
  | .illegalCommand => 8#4

/-- The bit TREE_SRC (R29, R38). -/
def TreeSrc.bit (src : TreeSrc) : Bool :=
  match src with
  | .tbuild => false
  | .tdec => true

/-- `STATUS` as the host reads it (R38): bits 7:5 read as 0, bit 4 mirrors WR.closed, then CODE_VALID, TREE_SRC,
TREE_VALID and ERR in bit 0. It is composed when
read and not stored (DEDUCED, log entry 7, safe). -/
def State.statusWord (s : State) : Byte :=
  0#3 ++ BitVec.ofBool s.wr.closed ++ BitVec.ofBool s.codeValid ++ BitVec.ofBool s.treeSrc.bit
    ++ BitVec.ofBool s.treeValid ++ BitVec.ofBool s.err

/-- `ERRCODE` as the host reads it (R39): bits 7:4 read as 0. -/
def State.errcodeWord (s : State) : Byte := 0#4 ++ s.errcode

/-- `CMD` as the host reads it: it stores nothing and reads 0 (R37). -/
def cmdWord : Byte := 0#8

end Sys2Proof.Machine
end

