-- ==== Sys2Proof/Machine/Operands.lean ====
section
/-!
DEFINITION. Values as bit sequences and bit sequences as bytes: bits_n and val (spec/00_scope.md R13), and the packing of
a stream's bits into its bytes (spec/20_memory.md R54, R61). Commands have no operand fields (R75); these are the
forms in which they take and give their implicit operands.
-/

namespace Sys2Proof.Machine

/-- `bits_n(v)`: the n bits of `v`, most significant first (R13). -/
def bitsOf {n : Nat} (v : BitVec n) : Bits := (List.range n).map fun i => v.getMsbD i

/-- `val(b)`: the unsigned value that `b` spells, most significant bit first (R13); `val(ε) = 0`. -/
def valOf (b : Bits) : Nat := b.foldl (fun acc bit => 2 * acc + bit.toNat) 0

/-- The bit sequence of an underlying byte stream: the most significant bit of each byte first (R54). -/
def bitsOfBytes (bytes : List Byte) : Bits := bytes.flatMap fun b => bitsOf b

/-- The whole bytes of a bit sequence, `floor(len / 8)` of them; up to 7 trailing bits make no byte (R61). -/
def bytesOfBits : Bits → List Byte
  | b7 :: b6 :: b5 :: b4 :: b3 :: b2 :: b1 :: b0 :: rest =>
    BitVec.ofNat 8 (valOf [b7, b6, b5, b4, b3, b2, b1, b0]) :: bytesOfBits rest
  | _ => []

end Sys2Proof.Machine
end

