-- ==== Sys2Proof/Machine/Ops.lean ====
section
/-!
DEFINITION. The named operations over the ports, the tables and the state: reading and writing the two streams
(spec/20_memory.md R55 to R62), reading and writing FREQ and CODE (spec/10_state.md R25, R26, R34), raising an error and
the gate (spec/60_exceptions.md R216, R217), the host's accesses (spec/10_state.md R41), and taking the next action of
the host's script.
-/

namespace Sys2Proof.Machine

open Sys2Proof.Config

/-! ### The read port -/

/-- How many bits are left to read. -/
def ReadPort.remaining (rd : ReadPort) : Nat := rd.bits.length - rd.pos

/-- `RD.bits` from `RD.pos` on. -/
def ReadPort.rest (rd : ReadPort) : Bits := rd.bits.drop rd.pos

/-- `RD.readBits(n)` (R55): the value of the next n bits, or `END` (none) with the position moved to the end. -/
def ReadPort.readBits (n : Nat) (rd : ReadPort) : Option (BitVec n) × ReadPort :=
  if rd.pos + n ≤ rd.bits.length then
    (some (BitVec.ofNat n (valOf ((rd.bits.drop rd.pos).take n))), { rd with pos := rd.pos + n })
  else (none, { rd with pos := rd.bits.length })

/-- `RD.reset()` (R57). -/
def ReadPort.rewound (rd : ReadPort) : ReadPort := { rd with pos := 0 }

/-- `RD` just after `attach RD(bytes)` (R53). -/
def ReadPort.attached (bytes : List Byte) : ReadPort := { bits := bitsOfBytes bytes, pos := 0 }

/-! ### The write port -/

/-- `WR.writeSeq(b)` (R59). -/
def WritePort.writeSeq (wr : WritePort) (b : Bits) : WritePort := { wr with bits := wr.bits ++ b }

/-- `WR.writeBits(n, v)` (R59). -/
def WritePort.writeBits {n : Nat} (wr : WritePort) (v : BitVec n) : WritePort := wr.writeSeq (bitsOf v)

/-- How many pad bits `close()` appends to `len` bits (R60). -/
def padCount (len : Nat) : Nat := (8 - len % 8) % 8

/-- `WR.close()` (R60). -/
def WritePort.close (padBit : Bool) (wr : WritePort) : WritePort :=
  if wr.closed then wr
  else { bits := wr.bits ++ List.replicate (padCount wr.bits.length) padBit, closed := true }

/-- `WR` just after `attach WR` (R62). -/
def WritePort.attached : WritePort := { bits := [], closed := false }

/-- The whole bytes the underlying stream of WR holds (R61). -/
def WritePort.bytes (wr : WritePort) : List Byte := bytesOfBits wr.bits

/-! ### The tables -/

/-- `FREQ[0..256]` as every reader sees it: the stored entries and the sentinel's, hardwired to 1 (R26). -/
def freqTable (f : FreqTable) : List Nat := f.toList ++ [1]

/-- `FREQ[s]` (R25, R26); an index above 256 does not arise (R205; DEDUCED, log entry 10, safe). -/
def freqAt (f : FreqTable) (s : Nat) : Nat := (freqTable f).getD s 0

/-- A host write to `FREQ[s]`: the low `COUNT_W` bits are kept (R25), a write to entry 256 is ignored (R26). -/
def freqWrite (p : Params) (f : FreqTable) (s : Fin 257) (v : Nat) : FreqTable :=
  if h : s.val < 256 then f.set s.val (v % 2 ^ p.countW) h else f

/-- The saturating increment of `FREQ[u]` (R101, R102). -/
def countUnit (p : Params) (f : FreqTable) (u : Byte) : FreqTable :=
  let n := f[u.toNat]'u.isLt
  f.set u.toNat (if n < p.maxCount then n + 1 else n) u.isLt

/-- Every `FREQ[0..255]` at 0 (R46, R101). -/
def freqZero : FreqTable := Vector.replicate 256 0

/-- `CODE[s]`; an index above 256 does not arise (R205), and none is answered for it
(DEDUCED, log entry 10, safe). -/
def codeAt (code : CodeTable) (s : Symbol) : Option Bits := if h : s.toNat < 257 then code[s.toNat]'h else none

/-- `CODE[s] <- p`; an index above 256 does not arise, since CTGEN has checked the symbols (R205;
DEDUCED, log entry 10, safe). -/
def codeSet (code : CodeTable) (s : Symbol) (p : Bits) : CodeTable :=
  if h : s.toNat < 257 then code.set s.toNat (some p) h else code

/-- Every `CODE[0..256]` absent (R46, R131). -/
def codeAbsent : CodeTable := Vector.replicate 257 none

/-! ### Named updates of the state -/

/-- The state with another read port. -/
def State.setRd (s : State) (rd : ReadPort) : State := { s with rd := rd }

/-- The state with another write port. -/
def State.setWr (s : State) (wr : WritePort) : State := { s with wr := wr }

/-- The state with other stored frequencies. -/
def State.setFreq (s : State) (f : FreqTable) : State := { s with freq := f }

/-- The state with another current node. -/
def State.setCur (s : State) (t : HuffTree) : State := { s with cur := t }

/-- A new tree from `src`: TREE_VALID is set, and CODE_VALID cleared because the code table no longer describes the
tree (R35, R112, R150). -/
def State.setTree (s : State) (src : TreeSrc) (t : HuffTree) : State :=
  { s with tree := t, treeValid := true, treeSrc := src, codeValid := false }

/-- A new code table, made from the current tree (R35, R131). -/
def State.setCode (s : State) (c : CodeTable) : State := { s with code := c, codeValid := true }

/-- The state with another host side. -/
def State.setHost (s : State) (h : HostSide) : State := { s with host := h }

/-! ### Taking an error, and the gate -/

/-- Whether TREE stays valid when an error is raised: not when TDEC raises it (R216). -/
def Raiser.keepsTree (who : Raiser) : Bool :=
  match who with
  | .tdec => false
  | .ctgen => true
  | .other => true

/-- Whether CODE stays valid when an error is raised: not when TDEC or CTGEN raises it (R216). -/
def Raiser.keepsCode (who : Raiser) : Bool :=
  match who with
  | .tdec => false
  | .ctgen => false
  | .other => true

/-- `raise E` (R216): ERR and ERRCODE are set; a raising TDEC discards the tree and the code table, a raising CTGEN the
code table. (The last line of R216, that a raising DECOMPRESS closes WR, is DECOMPRESS's own last step, R199.) -/
def State.raise (s : State) (who : Raiser) (e : Error) : State :=
  { s with
    err := true
    errcode := e.code
    treeValid := who.keepsTree && s.treeValid
    codeValid := who.keepsCode && s.codeValid }

/-- The command's end: with the error it met, or without one. -/
def State.endWith (s : State) (who : Raiser) (e : Option Error) : State :=
  match e with
  | none => s
  | some e => s.raise who e

/-- The gate (R217): while ERR is set the command does nothing at all. The same rule stops a composite command at its
first step that raises (R197, R199). -/
def State.gate (s : State) (body : State → State) : State := if s.err then s else body s

/-- The only recovery, the event `reset` and the command CLEAR alike (R46, R195, R235): every flag, the frequencies and
the codes at their reset values. TREE, CUR and the ports are not written (R20, R63). -/
def State.cleared (s : State) : State :=
  { s with
    err := false
    errcode := 0#4
    treeValid := false
    treeSrc := .tbuild
    codeValid := false
    freq := freqZero
    code := codeAbsent }

/-! ### The host -/

/-- What a host read returns (R41): CMD reads 0, STATUS and ERRCODE are composed, TREE and CODE answer nothing while
their valid flag is 0 (93 U6; DEDUCED, log entry 9, safe). -/
def State.hostRead (s : State) (e : Element) : Option HostValue :=
  match e with
  | .cmd => some (.word cmdWord)
  | .status => some (.word s.statusWord)
  | .errcode => some (.word s.errcodeWord)
  | .freq i => some (.count (freqAt s.freq i.val))
  | .tree => if s.treeValid then some (.tree s.tree) else none
  | .code i => if s.codeValid then some (.code (s.code[i.val]'i.isLt)) else none
  | .written => some (.bytes s.wr.bytes)

/-- A host access between commands (R41, R91). Accepted whether or not ERR is set; writes to STATUS and ERRCODE are
ignored (R38, R39). -/
def State.hostAccess (p : Params) (s : State) (a : HostAccess) : State :=
  match a with
  | .attachRd bytes => s.setRd (ReadPort.attached bytes)
  | .attachWr => s.setWr WritePort.attached
  | .writeFreq i v => s.setFreq (freqWrite p s.freq i v)
  | .writeStatus _ => s
  | .writeErrcode _ => s
  | .read e => s.setHost { s.host with reply := s.hostRead e }
  | .reset => s.cleared

/-- What taking the next action of the host's script comes to. -/
inductive Fetched where
  /-- the script is empty: the block waits for a command (R46) -/
  | waiting
  /-- the action is done: an access, or a word that is no command -/
  | done (s : State)
  /-- a command to run, and the state it runs in -/
  | issue (i : Instr) (s : State)

/-- A word written to CMD (R219): one that is no command raises IllegalCommandError, unless the gate ignores it (R77). -/
def State.writeCmd (s : State) (word : Byte) : Fetched :=
  match decode word with
  | .ok i => .issue i s
  | .error _ => .done (s.gate fun s => s.raise .other .illegalCommand)

/-- The state with the head of the host's script taken off. -/
def State.advance (s : State) : State := s.setHost { s.host with script := s.host.script.tail }

/-- Take the next action of the host's script. -/
def State.fetch (p : Params) (s : State) : Fetched :=
  match s.host.script with
  | [] => .waiting
  | .cmd word :: _ => s.advance.writeCmd word
  | .access a :: _ => .done (s.advance.hostAccess p a)

end Sys2Proof.Machine
end

