-- ==== Sys2Proof/Machine/Trees.lean ====
section
/-!
DEFINITION. Functions of trees (spec/00_scope.md R14) and the tree predicates of spec/10_state.md R30.
-/

namespace Sys2Proof.Machine

/-- `weight(t)` (R14). -/
def HuffTree.weight (t : HuffTree) : Nat :=
  match t with
  | .leaf _ w => w
  | .node w _ _ => w

/-- `leaves(t)`: the leaf symbols from left to right (R14). -/
def HuffTree.leaves : HuffTree → List Symbol
  | .leaf s _ => [s]
  | .node _ l r => l.leaves ++ r.leaves

/-- `nodes(t)`: the number of nodes, leaves and internal (R14). -/
def HuffTree.nodes : HuffTree → Nat
  | .leaf _ _ => 1
  | .node _ l r => 1 + l.nodes + r.nodes

/-- `depth(t)` (R14). -/
def HuffTree.depth : HuffTree → Nat
  | .leaf _ _ => 0
  | .node _ l r => 1 + max l.depth r.depth

/-- The tree is a single leaf (R32). -/
def HuffTree.isLeaf (t : HuffTree) : Bool :=
  match t with
  | .leaf _ _ => true
  | .node _ _ _ => false

/-- The child a payload bit selects: left on 0, right on 1 (R23, R171). A leaf has no child; PDEC never asks for one
(R172), and the function then answers the leaf itself (DEDUCED, log entry 10, safe). -/
def HuffTree.child (t : HuffTree) (bit : BitVec 1) : HuffTree :=
  match t with
  | .leaf s w => .leaf s w
  | .node _ l r => if bit = 1#1 then r else l

/-- No symbol occurs twice in the list. -/
def distinctSymbols : List Symbol → Bool
  | [] => true
  | s :: rest => !rest.contains s && distinctSymbols rest

/-- `WellFormed(t)`: every leaf symbol is at most 256 and none occurs twice (R30). -/
def HuffTree.wellFormed (t : HuffTree) : Bool :=
  t.leaves.all (fun s => decide (s ≤ eos)) && distinctSymbols t.leaves

/-- `Complete(t)`: well formed, with a leaf for EOS (R30). -/
def HuffTree.complete (t : HuffTree) : Bool := t.wellFormed && t.leaves.contains eos

/-- `t` with every weight replaced by 0, as TDEC makes it (R29, R84). -/
def HuffTree.unweighted : HuffTree → HuffTree
  | .leaf s _ => .leaf s 0
  | .node _ l r => .node 0 l.unweighted r.unweighted

end Sys2Proof.Machine
end

