-- ==== Sys2Proof/Machine/CodeTable.lean ====
section
/-!
DEFINITION. CTGEN (spec/42_code_table_generator.md R130 to R135).
-/

namespace Sys2Proof.Machine

/-- `walk(t, p)` of R131: at a leaf record the path, at an internal node go left with a 0, then right with a 1. -/
def codeWalk : HuffTree → Bits → CodeTable → CodeTable
  | .leaf s _, p, c => codeSet c s p
  | .node _ l r, p, c => codeWalk r (p ++ [true]) (codeWalk l (p ++ [false]) c)

/-- CTGEN (R131): derive CODE from TREE. The tree must be there, and be well formed (R133). -/
def ctgen (s : State) : State :=
  if !s.treeValid then s.raise .ctgen .sequence
  else if !s.tree.wellFormed then s.raise .ctgen .illFormedTree
  else s.setCode (codeWalk s.tree [] codeAbsent)

/-- The meaning of CTGEN. -/
def execCtgen (s : State) : Host.Outcome State Fault Refusal := .next (s.gate ctgen)

end Sys2Proof.Machine
end

