-- ==== Sys2Proof/Machine/FrequencyCounter.lean ====
section
/-!
DEFINITION. FCOUNT (spec/40_frequency_counter.md R101 to R105).
-/

namespace Sys2Proof.Machine

open Sys2Proof.Config

/-- The loop of R101: read a unit, stop at `END`, count it. Each round consumes 8 bits or ends, so `fuel` above the
number of units left is never used up. -/
def fcountLoop (p : Params) : Nat → ReadPort → FreqTable → ReadPort × FreqTable
  | 0, rd, f => (rd, f)
  | fuel + 1, rd, f =>
    match rd.readBits 8 with
    | (none, rd') => (rd', f)
    | (some u, rd') => fcountLoop p fuel rd' (countUnit p f u)

/-- FCOUNT (R101): zero the table, then count the units of RD from its position to its end. -/
def fcount (p : Params) (s : State) : State :=
  let run := fcountLoop p (s.rd.remaining + 1) s.rd freqZero
  (s.setFreq run.2).setRd run.1

/-- The meaning of FCOUNT. -/
def execFcount (s : State) : Host.Outcome State Fault Refusal := .next (s.gate (fcount params))

end Sys2Proof.Machine
end

