-- ==== Sys2Proof/Machine/Payload.lean ====
section
/-!
DEFINITION. PENC and PDEC (spec/44_payload_transducers.md R160 to R178).
-/

namespace Sys2Proof.Machine

/-- What the loop of PENC leaves. -/
structure EncodeRun where
  rd  : ReadPort
  wr  : WritePort
  err : Option Error

/-- The loop of R161: a code per unit, and the sentinel's code at `END`. Each round consumes 8 bits or ends, so `fuel`
above the number of units left is never used up. -/
def pencLoop (code : CodeTable) : Nat → ReadPort → WritePort → EncodeRun
  | 0, rd, wr => ⟨rd, wr, none⟩
  | fuel + 1, rd, wr =>
    match rd.readBits 8 with
    | (none, rd') =>
      match codeAt code eos with
      | none => ⟨rd', wr, some .noCode⟩
      | some c => ⟨rd', wr.writeSeq c, none⟩
    | (some u, rd') =>
      match codeAt code (u.setWidth 9) with
      | none => ⟨rd', wr, some .noCode⟩
      | some c => pencLoop code fuel rd' (wr.writeSeq c)

/-- PENC (R161): encode the units of RD to WR through CODE. The table must be there and WR open (R219). -/
def penc (s : State) : State :=
  if !s.codeValid then s.raise .other .sequence
  else if s.wr.closed then s.raise .other .sequence
  else
    let run := pencLoop s.code (s.rd.remaining + 1) s.rd s.wr
    ((s.setRd run.rd).setWr run.wr).endWith .other run.err

/-- The meaning of PENC. -/
def execPenc (s : State) : Host.Outcome State Fault Refusal := .next (s.gate penc)

/-- What the loop of PDEC leaves. -/
structure DecodeRun where
  cur : HuffTree
  rd  : ReadPort
  wr  : WritePort
  err : Option Error

/-- The loop of R171, one bit a round (R172): descend; at a leaf finish, fail, or emit and go back to the root. `fuel`
above the number of bits left is never used up. -/
def pdecLoop (root : HuffTree) : Nat → HuffTree → ReadPort → WritePort → DecodeRun
  | 0, cur, rd, wr => ⟨cur, rd, wr, none⟩
  | fuel + 1, cur, rd, wr =>
    match rd.readBits 1 with
    | (none, rd') => ⟨cur, rd', wr, some .truncatedPayload⟩
    | (some b, rd') =>
      match cur.child b with
      | .node w l r => pdecLoop root fuel (.node w l r) rd' wr
      | .leaf s w =>
        if s = eos then ⟨.leaf s w, rd', wr, none⟩
        else if eos < s then ⟨.leaf s w, rd', wr, some .illFormedTree⟩
        else pdecLoop root fuel root rd' (wr.writeBits (s.setWidth 8))

/-- PDEC from the root on (R171): a root that is a leaf is decided before the first read (R173). -/
def pdecRun (root : HuffTree) (rd : ReadPort) (wr : WritePort) : DecodeRun :=
  match root with
  | .leaf s w => if s = eos then ⟨.leaf s w, rd, wr, none⟩ else ⟨.leaf s w, rd, wr, some .illFormedTree⟩
  | .node w l r => pdecLoop (.node w l r) (rd.remaining + 1) (.node w l r) rd wr

/-- PDEC (R171): decode the bits of RD to WR through TREE. The tree must be there and WR open (R219). -/
def pdec (s : State) : State :=
  if !s.treeValid then s.raise .other .sequence
  else if s.wr.closed then s.raise .other .sequence
  else
    let run := pdecRun s.tree s.rd s.wr
    (((s.setCur run.cur).setRd run.rd).setWr run.wr).endWith .other run.err

/-- The meaning of PDEC. -/
def execPdec (s : State) : Host.Outcome State Fault Refusal := .next (s.gate pdec)

end Sys2Proof.Machine
end

