-- ==== Sys2Proof/Machine/PortCommands.lean ====
section
/-!
DEFINITION. The small commands NOP, WMAGIC, CMAGIC, REWIND, CLOSE and CLEAR (spec/45_sequencer_and_port_ops.md R186 to
R195). NOP, CLOSE and CLEAR are accepted while ERR is set (R217).
-/

namespace Sys2Proof.Machine

open Sys2Proof.Config

/-- The meaning of NOP (R186): nothing, whether or not ERR is set. -/
def execNop (s : State) : Host.Outcome State Fault Refusal := .next s

/-- WMAGIC (R187): write the 32 bits of MAGIC. WR must be open. -/
def wmagic (p : Params) (s : State) : State :=
  if s.wr.closed then s.raise .other .sequence else s.setWr (s.wr.writeBits p.magic)

/-- The meaning of WMAGIC. -/
def execWmagic (s : State) : Host.Outcome State Fault Refusal := .next (s.gate (wmagic params))

/-- CMAGIC (R188): read 32 bits and compare them with MAGIC; `END` equals no value. -/
def cmagic (p : Params) (s : State) : State :=
  match s.rd.readBits 32 with
  | (none, rd') => (s.setRd rd').raise .other .format
  | (some v, rd') => if v = p.magic then s.setRd rd' else (s.setRd rd').raise .other .format

/-- The meaning of CMAGIC. -/
def execCmagic (s : State) : Host.Outcome State Fault Refusal := .next (s.gate (cmagic params))

/-- REWIND (R190). -/
def rewind (s : State) : State := s.setRd s.rd.rewound

/-- The meaning of REWIND. -/
def execRewind (s : State) : Host.Outcome State Fault Refusal := .next (s.gate rewind)

/-- CLOSE (R191): close the writer; nothing where it is closed already. -/
def closeWr (p : Params) (s : State) : State := s.setWr (s.wr.close p.padBit)

/-- The meaning of CLOSE, let through by the gate (R217). -/
def execClose (s : State) : Host.Outcome State Fault Refusal := .next (closeWr params s)

/-- The meaning of CLEAR (R195), let through by the gate (R217). -/
def execClear (s : State) : Host.Outcome State Fault Refusal := .next s.cleared

end Sys2Proof.Machine
end

