-- ==== Sys2Proof/Machine/TreeBuilder.lean ====
section
/-!
DEFINITION. TBUILD (spec/41_tree_builder.md R110 to R118).
-/

namespace Sys2Proof.Machine

open Sys2Proof.Config

/-- `Q0(F)`: one leaf per symbol of nonzero count, in ascending symbol order, EOS last (R111). Never empty (R26). -/
def leafQueue (f : FreqTable) : List HuffTree :=
  (freqTable f).zipIdx.filterMap fun (count, sym) =>
    if 0 < count then some (.leaf (BitVec.ofNat 9 sym) count) else none

/-- The lowest weight in a queue; 0 for the empty queue, which does not arise. -/
def lowestWeight : List HuffTree → Nat
  | [] => 0
  | [t] => t.weight
  | t :: rest => min t.weight (lowestWeight rest)

/-- The positions of the lowest-weight nodes of a queue, ascending. -/
def lowestPositions (q : List HuffTree) : List Nat :=
  q.zipIdx.filterMap fun (t, i) => if t.weight = lowestWeight q then some i else none

/-- The position the policy picks among the lowest-weight nodes (R113). -/
def pickPosition (pick : Nat) (q : List HuffTree) : Nat :=
  (lowestPositions q).getD (pick % (lowestPositions q).length) 0

/-- The two nodes one merge combines (R112): `a` from the queue, then `b` from what is left. -/
def combine (swap : Bool) (a b : HuffTree) : HuffTree :=
  if swap then .node (a.weight + b.weight) b a else .node (a.weight + b.weight) a b

/-- One round of R112: remove a node of lowest weight, then another, and append their parent. A queue of fewer than two
nodes is left as it is. -/
def mergeOnce (c : TieChoice) (q : List HuffTree) : List HuffTree :=
  let i := pickPosition c.first q
  let q1 := q.eraseIdx i
  let j := pickPosition c.second q1
  match q[i]?, q1[j]? with
  | some a, some b => q1.eraseIdx j ++ [combine c.swap a b]
  | _, _ => q

/-- The loop of R112, `choice k` being the policy's decision at merge `k`: each round shortens the queue by one, so
`fuel` at the queue's length is never used up. -/
def mergeAll (choice : Nat → TieChoice) : Nat → Nat → List HuffTree → List HuffTree
  | 0, _, q => q
  | fuel + 1, k, q => if q.length ≤ 1 then q else mergeAll choice fuel (k + 1) (mergeOnce (choice k) q)

/-- The tree the procedure builds from `f` under the decisions `choice`: the one node left (R110). The default is not
reached, since the queue is never empty (DEDUCED, log entry 10, safe). -/
def buildTree (choice : Nat → TieChoice) (f : FreqTable) : HuffTree :=
  (mergeAll choice (leafQueue f).length 0 (leafQueue f)).headD (.leaf eos 1)

/-- TBUILD (R112): build TREE from FREQ. -/
def tbuild (p : Params) (s : State) : State := s.setTree .tbuild (buildTree (p.tie s.freq) s.freq)

/-- The meaning of TBUILD. -/
def execTbuild (s : State) : Host.Outcome State Fault Refusal := .next (s.gate (tbuild params))

end Sys2Proof.Machine
end

