-- ==== Sys2Proof/Machine/TreeCodec.lean ====
section
/-!
DEFINITION. TENC and TDEC (spec/43_tree_codec.md R140 to R157).
-/

namespace Sys2Proof.Machine

/-- `emit(t)` of R141: a flag bit, then the 9-bit symbol of a leaf or the two subtrees of a node. -/
def emitTree : HuffTree → WritePort → WritePort
  | .leaf s _, wr => (wr.writeBits 1#1).writeBits s
  | .node _ l r, wr => emitTree r (emitTree l (wr.writeBits 0#1))

/-- TENC (R141): write TREE to WR as a header. The tree must be there and WR open (R219). -/
def tenc (s : State) : State :=
  if !s.treeValid then s.raise .other .sequence
  else if s.wr.closed then s.raise .other .sequence
  else s.setWr (emitTree s.tree s.wr)

/-- The meaning of TENC. -/
def execTenc (s : State) : Host.Outcome State Fault Refusal := .next (s.gate tenc)

/-- What `rd()` of R150 leaves: the tree or the error it raised, how many nodes have been counted, and the read port. -/
structure HeaderRead where
  result : Except Error HuffTree
  count  : Nat
  rd     : ReadPort

/-- `rd()` of R150. The capacity check comes before the read of the node's flag (R153, R219). `fuel` bounds how deep the
nodes are nested; it is spent no faster than nodes are counted, so with `NODE_CAP` to start with it is used up only
where `count` has reached `NODE_CAP`. -/
def readTree : Nat → Nat → ReadPort → HeaderRead
  | 0, count, rd => ⟨.error .capacity, count, rd⟩
  | fuel + 1, count, rd =>
    if count = nodeCap then ⟨.error .capacity, count, rd⟩
    else
      match rd.readBits 1 with
      | (none, rd1) => ⟨.error .truncatedHeader, count + 1, rd1⟩
      | (some flag, rd1) =>
        if flag = 1#1 then
          match rd1.readBits 9 with
          | (none, rd2) => ⟨.error .truncatedHeader, count + 1, rd2⟩
          | (some v, rd2) => ⟨.ok (.leaf v 0), count + 1, rd2⟩
        else
          match readTree fuel (count + 1) rd1 with
          | ⟨.error e, n, rd2⟩ => ⟨.error e, n, rd2⟩
          | ⟨.ok l, n, rd2⟩ =>
            match readTree fuel n rd2 with
            | ⟨.error e, m, rd3⟩ => ⟨.error e, m, rd3⟩
            | ⟨.ok r, m, rd3⟩ => ⟨.ok (.node 0 l r), m, rd3⟩

/-- TDEC (R150): read a header from RD into TREE. -/
def tdec (s : State) : State :=
  let run := readTree nodeCap 0 s.rd
  match run.result with
  | .ok t => (s.setRd run.rd).setTree .tdec t
  | .error e => (s.setRd run.rd).raise .tdec e

/-- The meaning of TDEC. -/
def execTdec (s : State) : Host.Outcome State Fault Refusal := .next (s.gate tdec)

end Sys2Proof.Machine
end

