-- ==== Sys2Proof/Machine/Composites.lean ====
section
/-!
DEFINITION. COMPRESS and DECOMPRESS (spec/45_sequencer_and_port_ops.md R196 to R203): fixed sequences of the other
commands' bodies, each step skipped once one has raised, and WR closed at the end in either case.
-/

namespace Sys2Proof.Machine

open Sys2Proof.Config

/-- The steps of COMPRESS before the closing of WR (R197). -/
def compressSteps (p : Params) (s : State) : State :=
  ((((((rewind (fcount p (rewind s))).gate (tbuild p)).gate ctgen).gate (wmagic p)).gate tenc).gate penc)

/-- COMPRESS (R197): compress all of RD into WR. WR must be open. -/
def compress (p : Params) (s : State) : State :=
  if s.wr.closed then s.raise .other .sequence else closeWr p (compressSteps p s)

/-- The meaning of COMPRESS. -/
def execCompress (s : State) : Host.Outcome State Fault Refusal := .next (s.gate (compress params))

/-- The steps of DECOMPRESS before the closing of WR (R199). -/
def decompressSteps (p : Params) (s : State) : State := ((cmagic p s).gate tdec).gate pdec

/-- DECOMPRESS (R199): decompress RD into WR. WR must be open; it is closed whether or not a step raised. -/
def decompress (p : Params) (s : State) : State :=
  if s.wr.closed then s.raise .other .sequence else closeWr p (decompressSteps p s)

/-- The meaning of DECOMPRESS. -/
def execDecompress (s : State) : Host.Outcome State Fault Refusal := .next (s.gate (decompress params))

end Sys2Proof.Machine
end

