-- ==== Sys2Proof/Machine/Dispatch.lean ====
section
/-!
DEFINITION. One arm per command (spec/30_encoding.md R76).
-/

namespace Sys2Proof.Machine

def exec (i : Instr) (s : State) : Host.Outcome State Fault Refusal :=
  match i with
  | .nop => Sys2Proof.Machine.execNop s
  | .fcount => Sys2Proof.Machine.execFcount s
  | .tbuild => Sys2Proof.Machine.execTbuild s
  | .ctgen => Sys2Proof.Machine.execCtgen s
  | .tenc => Sys2Proof.Machine.execTenc s
  | .tdec => Sys2Proof.Machine.execTdec s
  | .penc => Sys2Proof.Machine.execPenc s
  | .pdec => Sys2Proof.Machine.execPdec s
  | .wmagic => Sys2Proof.Machine.execWmagic s
  | .cmagic => Sys2Proof.Machine.execCmagic s
  | .rewind => Sys2Proof.Machine.execRewind s
  | .close => Sys2Proof.Machine.execClose s
  | .compress => Sys2Proof.Machine.execCompress s
  | .decompress => Sys2Proof.Machine.execDecompress s
  | .clear => Sys2Proof.Machine.execClear s

end Sys2Proof.Machine
end

