-- ==== Sys2Proof/Machine/Step.lean ====
section
/-!
DEFINITION. One step: the next action of the host's script, to completion (spec/00_scope.md R16). The block fetches no
instructions (spec/10_state.md R22); what stands for the fetch is the host's write to CMD.
-/

namespace Sys2Proof.Machine

/-- Take the host's next action: a command runs, an access is done, and with nothing to take the block waits (R46). -/
def step (s : State) : Host.Outcome State Fault Refusal :=
  match s.fetch Sys2Proof.Config.params with
  | .waiting => .next s
  | .done s' => .next s'
  | .issue i s' => exec i s'

/-- The state in which the host's next action is to write the word `w` to CMD. -/
def State.withFetchWord (s : State) (nbits w : Nat) : State :=
  s.setHost { s.host with script := .cmd (tableWord nbits w) :: s.host.script }

end Sys2Proof.Machine
end

