-- ==== Sys2Proof/Machine/Format.lean ====
section
/-!
DEFINITION. The data encodings as grammars (spec/30_encoding.md R79 to R88): the tree header Ser and its parser Deser,
the code of a symbol, the payload, the file. The commands do not call these: they write and read bit by bit as their
rules say, and the closed forms of the rules (R132, R142, R154, R163, R175, R198) are claims that the two agree.
-/

namespace Sys2Proof.Machine

/-- `Ser(t)`, the header of a tree (R81). -/
def ser : HuffTree → Bits
  | .leaf s _ => true :: bitsOf s
  | .node _ l r => false :: (ser l ++ ser r)

/-- `Deser` on the front of a bit sequence (R83), `fuel` bounding the depth of the parse: a depth beyond the number of
bits cannot be parsed. -/
def deserDepth : Nat → Bits → Option (HuffTree × Bits)
  | 0, _ => none
  | _ + 1, [] => none
  | _ + 1, true :: b =>
    if b.length < 9 then none else some (.leaf (BitVec.ofNat 9 (valOf (b.take 9))) 0, b.drop 9)
  | fuel + 1, false :: b =>
    match deserDepth fuel b with
    | none => none
    | some (l, b2) =>
      match deserDepth fuel b2 with
      | none => none
      | some (r, b3) => some (.node 0 l r, b3)

/-- `Deser(b)`: a tree read from the front of `b` and the rest of `b`, or a failure (R83). -/
def deser (b : Bits) : Option (HuffTree × Bits) := deserDepth b.length b

/-- What is left of the preorder parse after reading `n` nodes from `b` when `wanted` subtrees are still to be read: how
many subtrees are wanted then, and the rest of `b`; none if `b` runs out first. A parse that wants no subtree is
finished and reads no node more (R83, R154). -/
def preorderRead : Nat → Nat → Bits → Option (Nat × Bits)
  | 0, wanted, b => some (wanted, b)
  | _ + 1, 0, b => some (0, b)
  | _ + 1, _ + 1, [] => none
  | n + 1, wanted + 1, true :: b => if b.length < 9 then none else preorderRead n wanted (b.drop 9)
  | n + 1, wanted + 1, false :: b => preorderRead n (wanted + 2) b

/-- `path(t, s)`: the branch bits from the root to the leaf that holds `s`, left 0, right 1 (R87); none where no leaf
holds it, and the leftmost leaf where several do. -/
def path : HuffTree → Symbol → Option Bits
  | .leaf x _, s => if x = s then some [] else none
  | .node _ l r, s =>
    match path l s with
    | some p => some (false :: p)
    | none => (path r s).map (true :: ·)

/-- The code of a symbol, empty where the tree has no leaf for it. -/
def codeOf (t : HuffTree) (s : Symbol) : Bits := (path t s).getD []

/-- A unit as a symbol, `zext_9` (R13). -/
def symbolOf (u : Byte) : Symbol := u.setWidth 9

/-- `Pay(S, t)`: the codes of the units in order, then the sentinel's (R87). -/
def pay (units : List Byte) (t : HuffTree) : Bits :=
  units.flatMap (fun u => codeOf t (symbolOf u)) ++ codeOf t eos

/-- A bit sequence padded with `padBit` to a whole number of bytes, as `close()` leaves it (R60, R88). -/
def padded (padBit : Bool) (b : Bits) : Bits := b ++ List.replicate ((8 - b.length % 8) % 8) padBit

/-- One code read from the front of `b`: the symbol of the leaf it leads to and the rest of `b`; none if `b` runs out
between root and leaf (R175). -/
def readCode : HuffTree → Bits → Option (Symbol × Bits)
  | .leaf s _, b => some (s, b)
  | .node _ _ _, [] => none
  | .node _ l r, bit :: b => if bit then readCode r b else readCode l b

end Sys2Proof.Machine
end

