-- ==== Sys2Proof/Safety.lean ====
section
/-!
DEFINITION. The terms in which claims speak of the block: the relation Huff (spec/41_tree_builder.md R111), what greedy
decoding of a payload comes to (spec/44_payload_transducers.md R175), which command may raise what
(spec/60_exceptions.md R214, R217), and the invariant of every reachable state (R222, with the bounds of
spec/10_state.md R25, R31, R34, R39 and spec/20_memory.md R51, R61).
-/

namespace Sys2Proof.Machine

open Sys2Proof.Config

/-! ### Trees -/

/-- `Q => Q'` (R111): some node `a` of lowest weight is removed from `q`, some node `b` of lowest weight from the rest,
and their parent, with the two in either order, is appended. -/
def Merges (q q' : List HuffTree) : Prop :=
  ∃ (i j : Nat) (a b : HuffTree),
    q[i]? = some a ∧ (∀ x ∈ q, a.weight ≤ x.weight) ∧
    (q.eraseIdx i)[j]? = some b ∧ (∀ x ∈ q.eraseIdx i, b.weight ≤ x.weight) ∧
    (q' = (q.eraseIdx i).eraseIdx j ++ [.node (a.weight + b.weight) a b] ∨
      q' = (q.eraseIdx i).eraseIdx j ++ [.node (a.weight + b.weight) b a])

/-- `Huff(F, t)` (R111): zero or more merges lead from the leaves of nonzero count to the one-element queue `[t]`. -/
def Huff (f : FreqTable) (t : HuffTree) : Prop := Relation.ReflTransGen Merges (leafQueue f) [t]

/-- The symbols of nonzero count, ascending; the sentinel's count is 1 (R26, R116). -/
def presentSymbols (f : FreqTable) : List Symbol :=
  ((List.range 257).filter fun s => decide (0 < freqAt f s)).map (BitVec.ofNat 9)

/-- Each leaf weighs its symbol's count and each internal node the sum of its children's weights (R116). -/
def HuffTree.weighs (f : FreqTable) : HuffTree → Prop
  | .leaf s w => w = freqAt f s.toNat
  | .node w l r => w = l.weight + r.weight ∧ l.weighs f ∧ r.weighs f

/-- At every internal node the left child weighs no more than the right (R114). -/
def HuffTree.lightLeft : HuffTree → Prop
  | .leaf _ _ => True
  | .node _ l r => l.weight ≤ r.weight ∧ l.lightLeft ∧ r.lightLeft

/-- The share of a code in the Kraft sum (R134): 2 to the power of minus its length, and nothing where it is absent. -/
def kraftShare (code : Option Bits) : ℚ :=
  match code with
  | some c => (1 / 2) ^ c.length
  | none => 0

/-! ### The streams -/

/-- The 8-bit units from RD's position to its end (R103, R163); a partial last unit is none (R105). -/
def ReadPort.units (rd : ReadPort) : List Byte := bytesOfBits rd.rest

/-- The bytes of the whole attached stream, whatever the position (R198). -/
def ReadPort.bytes (rd : ReadPort) : List Byte := bytesOfBits rd.bits

/-- The table FCOUNT makes of a list of units: the number of occurrences of each byte value, saturated (R103). -/
def countsOf (p : Params) (units : List Byte) : FreqTable :=
  Vector.ofFn fun i : Fin 256 => min (units.count (BitVec.ofNat 8 i.val)) p.maxCount

/-- Every unit has a leaf in the tree (R176). -/
def unitsIn (units : List Byte) (t : HuffTree) : Prop := ∀ u ∈ units, symbolOf u ∈ t.leaves

/-! ### Decoding -/

/-- How the greedy splitting of a payload ends (R175). -/
inductive Ending where
  /-- at a leaf that holds EOS -/
  | sentinel
  /-- at a leaf whose symbol is above 256 -/
  | reserved
  /-- the bits ran out -/
  | exhausted
  deriving DecidableEq, Repr

/-- The error PDEC ends with (R171). -/
def Ending.error (e : Ending) : Option Error :=
  match e with
  | .sentinel => none
  | .reserved => some .illFormedTree
  | .exhausted => some .truncatedPayload

/-- Greedy decoding (R175): `Decodes t b us e rest` says that `b` splits into the codes of the units `us` in order and
then ends as `e`, `rest` being the bits not read. -/
inductive Decodes (t : HuffTree) : Bits → List Byte → Ending → Bits → Prop where
  | sentinel {b rest : Bits} (h : readCode t b = some (eos, rest)) : Decodes t b [] .sentinel rest
  | reserved {b rest : Bits} {s : Symbol} (h : readCode t b = some (s, rest)) (hs : eos < s) : Decodes t b [] .reserved rest
  | exhausted {b : Bits} (h : readCode t b = none) : Decodes t b [] .exhausted []
  | unit {b b' rest : Bits} {s : Symbol} {us : List Byte} {e : Ending} (h : readCode t b = some (s, b')) (hs : s < eos)
      (hrest : Decodes t b' us e rest) : Decodes t b (s.setWidth 8 :: us) e rest

/-! ### Errors -/

/-- The commands the gate lets through while ERR is set (R217). -/
def acceptedUnderError (i : Instr) : Bool :=
  match i with
  | .nop => true
  | .close => true
  | .clear => true
  | .fcount | .tbuild | .ctgen | .tenc | .tdec | .penc | .pdec | .wmagic | .cmagic | .rewind | .compress | .decompress => false

/-- Which errors a command can raise (R214). -/
def mayRaise (i : Instr) : List Error :=
  match i with
  | .nop | .fcount | .tbuild | .rewind | .close | .clear => []
  | .ctgen => [.sequence, .illFormedTree]
  | .tenc => [.sequence]
  | .tdec => [.truncatedHeader, .capacity]
  | .penc => [.sequence, .noCode]
  | .pdec => [.truncatedPayload, .sequence, .illFormedTree]
  | .wmagic => [.sequence]
  | .cmagic => [.format]
  | .compress => [.sequence]
  | .decompress => [.format, .truncatedHeader, .truncatedPayload, .sequence, .capacity, .illFormedTree]

/-! ### The invariant -/

/-- A read port's position is within its stream, and the stream is whole bytes (R51). -/
def ReadPort.wf (rd : ReadPort) : Prop := rd.pos ≤ rd.bits.length ∧ rd.bits.length % 8 = 0

/-- A closed write port holds whole bytes (R61). -/
def WritePort.wf (wr : WritePort) : Prop := wr.closed = true → wr.bits.length % 8 = 0

/-- Every stored count fits `COUNT_W` bits (R25). -/
def countsFit (p : Params) (f : FreqTable) : Prop := ∀ i : Fin 256, f[i.val]'i.isLt < 2 ^ p.countW

/-- CODE is the code table of `t` (R132). -/
def isCodeTableOf (code : CodeTable) (t : HuffTree) : Prop :=
  ∀ i : Fin 257, code[i.val]'i.isLt = path t (BitVec.ofNat 9 i.val)

/-- What holds in every reachable state (R222, and the bounds named above). -/
structure State.Inv (p : Params) (s : State) : Prop where
  /-- `ERRCODE != 0` iff `ERR = 1` (R39, R222) -/
  errcode_iff : s.errcode ≠ 0#4 ↔ s.err = true
  /-- codes 9 to 15 are never produced (R211) -/
  errcode_le : s.errcode ≤ 8#4
  /-- a valid code table is that of the tree, which is there and well formed (R222) -/
  code_of_tree : s.codeValid = true → s.treeValid = true ∧ s.tree.wellFormed = true ∧ isCodeTableOf s.code s.tree
  /-- a valid tree fits the tree store (R31, R222) -/
  nodes_le : s.treeValid = true → s.tree.nodes ≤ nodeCap
  /-- a tree made by TBUILD was built from some table (R222) -/
  built : s.treeValid = true → s.treeSrc = .tbuild → ∃ f, countsFit p f ∧ Huff f s.tree
  /-- every weight of a tree made by TDEC is 0 (R29) -/
  decoded : s.treeValid = true → s.treeSrc = .tdec → s.tree.unweighted = s.tree
  /-- counts are `COUNT_W` bits wide (R25) -/
  counts : countsFit p s.freq
  /-- a code is at most `MAX_DEPTH` = 256 bits long (R34) -/
  code_length : ∀ (i : Fin 257) (c : Bits), s.code[i.val]'i.isLt = some c → c.length ≤ 256
  /-- R51 -/
  rd_wf : s.rd.wf
  /-- R61 -/
  wr_wf : s.wr.wf

end Sys2Proof.Machine
end

