-- ==== Sys2Proof/Certificates/Slice0/Obligations.lean ====
section
/-!
DEFINITION. The statements for the provers, each a proposition about the machine. The numbered rules are those of spec/.
Statements speak of `Config.params`, the block's own opaque parameters, so each holds for every value of MAGIC, PAD_BIT,
COUNT_W and TIE_POLICY.
-/

open Sys2Proof Sys2Proof.Machine

/-! ### Decoding commands, and what a step does -/

/-- R76: the table of command words, and that no other word is a command. -/
def Obligations.CommandTableDecodes : Prop :=
  decode 0x00#8 = .ok .nop ∧ decode 0x01#8 = .ok .fcount ∧ decode 0x02#8 = .ok .tbuild ∧ decode 0x03#8 = .ok .ctgen ∧
  decode 0x04#8 = .ok .tenc ∧ decode 0x05#8 = .ok .tdec ∧ decode 0x06#8 = .ok .penc ∧ decode 0x07#8 = .ok .pdec ∧
  decode 0x08#8 = .ok .wmagic ∧ decode 0x09#8 = .ok .cmagic ∧ decode 0x0A#8 = .ok .rewind ∧ decode 0x0B#8 = .ok .close ∧
  decode 0x0C#8 = .ok .compress ∧ decode 0x0D#8 = .ok .decompress ∧ decode 0x0E#8 = .ok .clear ∧
  ∀ w : Byte, (∃ i, decode w = .ok i) ↔ (w.extractLsb' 4 4 = 0#4 ∧ w.extractLsb' 0 4 ≠ 15#4)

/-- Decoding and encoding agree on every command and on every word that is one (the spec's R78 is its own inference). -/
def Obligations.DecodeEncodeAgree : Prop :=
  (∀ i : Instr, decode (encode i) = .ok i) ∧ (∀ (w : Byte) (i : Instr), decode w = .ok i → encode i = w)

/-- A step whose next host action writes a word that decodes to `i` is exec of `i` in the state with that action taken
off the script. The script is the model's own (log entry 6). -/
def Obligations.StepRunsDecodedCommand : Prop :=
  ∀ (s : State) (w : Byte) (rest : List HostAction) (i : Instr),
    s.host.script = .cmd w :: rest → decode w = .ok i →
      step s = exec i { s with host := { s.host with script := rest } }

/-- With no host action to take, the block waits (R46, R235). The script is the model's own (log entry 6). -/
def Obligations.EmptyScriptWaits : Prop := ∀ s : State, s.host.script = [] → step s = .next s

/-- R77: a word that is no command raises IllegalCommandError, unless ERR is set; then it is ignored. -/
def Obligations.IllegalWordRaises : Prop :=
  ∀ (s : State) (w : Byte) (rest : List HostAction),
    s.host.script = .cmd w :: rest → (w = 0x0F#8 ∨ w.extractLsb' 4 4 ≠ 0#4) →
      step s = .next (if s.err then { s with host := { s.host with script := rest } }
        else { s with err := true, errcode := 8#4, host := { s.host with script := rest } })

/-- A step whose next host action is an access does that access, with the action taken off the script. The script is the
model's own (log entry 6). -/
def Obligations.StepDoesHostAccess : Prop :=
  ∀ (s : State) (a : HostAccess) (rest : List HostAction), s.host.script = .access a :: rest →
    step s = .next (({ s with host := { s.host with script := rest } } : State).hostAccess Config.params a)

/-- R53, R62: attaching gives RD the bits of the bytes and position 0, and WR an empty open stream; no other access
touches WR, and no command opens a closed one. -/
def Obligations.AttachGivesFreshPorts : Prop :=
  ∀ s : State,
    (∀ bytes : List Byte, s.hostAccess Config.params (.attachRd bytes) =
      { s with rd := { bits := bitsOfBytes bytes, pos := 0 } }) ∧
    s.hostAccess Config.params .attachWr = { s with wr := { bits := [], closed := false } } ∧
    (∀ a : HostAccess, a ≠ .attachWr → (s.hostAccess Config.params a).wr = s.wr) ∧
    ∀ (i : Instr) (t : State), s.wr.closed = true → exec i s = .next t → t.wr.closed = true

/-- The sentinel's entry reads 1 in every state and a host write to it is ignored (R26); a host write to another entry keeps
the low COUNT_W bits, changes that entry alone, and nothing else of the block (R25). -/
def Obligations.FreqWriteKeepsSentinel : Prop :=
  (∀ f : FreqTable, freqAt f 256 = 1) ∧
  ∀ (s : State) (i : Fin 257) (v : Nat),
    ∃ f : FreqTable, s.hostAccess Config.params (.writeFreq i v) = { s with freq := f } ∧
      ∀ k, k ≤ 256 → freqAt f k = if k = i.val ∧ k < 256 then v % 2 ^ Config.params.countW else freqAt s.freq k

/-- The layout of STATUS, and that host writes to it are ignored (part of R38). -/
def Obligations.StatusWordLayout : Prop :=
  (∀ s : State, s.statusWord.getLsbD 0 = s.err ∧ s.statusWord.getLsbD 1 = s.treeValid ∧
    s.statusWord.getLsbD 2 = (s.treeSrc == .tdec) ∧ s.statusWord.getLsbD 3 = s.codeValid ∧
    s.statusWord.getLsbD 4 = s.wr.closed ∧ s.statusWord.extractLsb' 5 3 = 0#3) ∧
  ∀ (s : State) (v : Byte), s.hostAccess Config.params (.writeStatus v) = s

/-- The layout of ERRCODE as the host reads it, and that host writes to it are ignored (part of R39). -/
def Obligations.ErrcodeWordLayout : Prop :=
  (∀ s : State, s.errcodeWord.extractLsb' 0 4 = s.errcode ∧ s.errcodeWord.extractLsb' 4 4 = 0#4) ∧
  ∀ (s : State) (v : Byte), s.hostAccess Config.params (.writeErrcode v) = s

/-- What a host read returns, and that it changes nothing of the block (R41, 93 U6). That the value stands in the host's
side is the model's choice (log entry 6). -/
def Obligations.HostReadsReturn : Prop :=
  ∀ (s : State) (e : Element),
    ∃ v : Option HostValue, s.hostAccess Config.params (.read e) = { s with host := { s.host with reply := v } } ∧
      (e = .cmd → v = some (.word 0#8)) ∧
      (e = .status → v = some (.word s.statusWord)) ∧
      (e = .errcode → v = some (.word s.errcodeWord)) ∧
      (∀ i, e = .freq i → v = some (.count (freqAt s.freq i.val))) ∧
      (e = .tree → v = if s.treeValid then some (.tree s.tree) else none) ∧
      (∀ i, e = .code i → v = if s.codeValid then some (.code (s.code[i.val]'i.isLt)) else none) ∧
      (e = .written → v = some (.bytes (bytesOfBits s.wr.bits)))

/-- R46, R63: the state after reset has the values the spec gives; the host's reset puts them into any state and leaves
the ports alone, and so does CLEAR. (TREE and CUR, which R46 calls unspecified, are not spoken of.) -/
def Obligations.ResetValues : Prop :=
  (State.reset.err = false ∧ State.reset.errcode = 0#4 ∧ State.reset.treeValid = false ∧
    State.reset.treeSrc = .tbuild ∧ State.reset.codeValid = false ∧
    (∀ k < 256, freqAt State.reset.freq k = 0) ∧ freqAt State.reset.freq 256 = 1 ∧
    ∀ i : Fin 257, State.reset.code[i.val]'i.isLt = none) ∧
  ∀ s : State, ∃ t : State, s.hostAccess Config.params .reset = t ∧ exec .clear s = .next t ∧
    t.err = false ∧ t.errcode = 0#4 ∧ t.treeValid = false ∧ t.treeSrc = .tbuild ∧
    t.codeValid = false ∧ (∀ k < 256, freqAt t.freq k = 0) ∧ freqAt t.freq 256 = 1 ∧
    (∀ i : Fin 257, t.code[i.val]'i.isLt = none) ∧ t.rd = s.rd ∧ t.wr = s.wr

/-! ### Bits, bytes and the ports -/

/-- R13: the bits of a value are its bits from the most significant down, and bits_n and val are inverse. -/
def Obligations.BitsAndValuesInverse : Prop :=
  (∀ (n : Nat) (v : BitVec n), (bitsOf v).length = n ∧ (∀ i, i < n → (bitsOf v)[i]? = some (v.getLsbD (n - 1 - i))) ∧
    valOf (bitsOf v) = v.toNat) ∧
  (∀ b : Bits, valOf b = ∑ i : Fin b.length, (b[i.val]).toNat * 2 ^ (b.length - 1 - i.val)) ∧
  ∀ b : Bits, bitsOf (BitVec.ofNat b.length (valOf b)) = b

/-- R54: bit k of a stream is bit 7 - (k mod 8) of byte floor(k / 8), on RD and on WR. -/
def Obligations.StreamByteOrder : Prop :=
  (∀ bytes : List Byte, (bitsOfBytes bytes).length = 8 * bytes.length ∧
    ∀ k, k < 8 * bytes.length →
      ∃ b, bytes[k / 8]? = some b ∧ (bitsOfBytes bytes)[k]? = some (b.getLsbD (7 - k % 8))) ∧
  ∀ (wr : WritePort) (k : Nat), k < 8 * (wr.bits.length / 8) →
    ∃ b, wr.bytes[k / 8]? = some b ∧ wr.bits[k]? = some (b.getLsbD (7 - k % 8))

/-- R55: a read answers the next n bits, most significant first, and advances by n, or answers END and moves to the
end, after which every read answers END. -/
def Obligations.ReadBitsSpec : Prop :=
  ∀ (n : Nat) (rd : ReadPort), 1 ≤ n →
    (rd.pos + n ≤ rd.bits.length →
      ∃ v : BitVec n, bitsOf v = (rd.bits.drop rd.pos).take n ∧
        rd.readBits n = (some v, { bits := rd.bits, pos := rd.pos + n })) ∧
    (¬ rd.pos + n ≤ rd.bits.length →
      rd.readBits n = (none, { bits := rd.bits, pos := rd.bits.length }) ∧
      ∀ m, 1 ≤ m → (ReadPort.readBits m { bits := rd.bits, pos := rd.bits.length }).1 = none)

/-- R61: the host sees floor(len / 8) bytes, byte j being bits 8j to 8j + 7, and after close() all of the bits. -/
def Obligations.WholeBytesVisible : Prop :=
  (∀ wr : WritePort, wr.bytes.length = wr.bits.length / 8 ∧
    ∀ j, j < wr.bits.length / 8 → ∃ b, wr.bytes[j]? = some b ∧ bitsOf b = (wr.bits.drop (8 * j)).take 8) ∧
  ∀ (wr : WritePort) (padBit : Bool), wr.closed = false →
    (wr.close padBit).bits.length % 8 = 0 ∧ bitsOfBytes (wr.close padBit).bytes = (wr.close padBit).bits

/-! ### The commands -/

/-- R186: NOP changes nothing, also while ERR is set. -/
def Obligations.NopChangesNothing : Prop := ∀ s : State, exec .nop s = .next s

/-- R101, R102: FCOUNT makes the table of the saturated counts of the units from RD's position on, leaves RD at its end,
and changes nothing else. -/
def Obligations.FcountCountsUnits : Prop :=
  ∀ s : State, s.err = false →
    exec .fcount s = .next { s with
      freq := countsOf Config.params s.rd.units
      rd := { s.rd with pos := s.rd.bits.length } }

/-- R112: TBUILD puts a tree that the greedy procedure can build from FREQ into TREE, the one TIE_POLICY picks, sets
TREE_VALID, clears TREE_SRC and CODE_VALID, and changes nothing else. -/
def Obligations.TbuildBuildsHuffTree : Prop :=
  ∀ s : State, s.err = false →
    Huff s.freq (buildTree (Config.tie s.freq) s.freq) ∧
    exec .tbuild s = .next { s with
      tree := buildTree (Config.tie s.freq) s.freq
      treeValid := true
      treeSrc := .tbuild
      codeValid := false }

/-- R131: CTGEN writes each of the 257 entries, the path of a symbol that has a leaf and absent for another, and sets
CODE_VALID; without a tree, or on a tree that is not well formed, it raises and clears CODE_VALID. -/
def Obligations.CtgenWritesPaths : Prop :=
  ∀ s : State, s.err = false →
    (s.treeValid = true → s.tree.wellFormed = true →
      ∃ table : CodeTable, exec .ctgen s = .next { s with code := table, codeValid := true } ∧
        ∀ i : Fin 257, table[i.val]'i.isLt = path s.tree (BitVec.ofNat 9 i.val)) ∧
    (s.treeValid = false →
      exec .ctgen s = .next { s with err := true, errcode := 4#4, codeValid := false }) ∧
    (s.treeValid = true → s.tree.wellFormed = false →
      exec .ctgen s = .next { s with err := true, errcode := 6#4, codeValid := false })

/-- R141: TENC appends the header of TREE to WR and changes nothing else; without a tree, or with WR closed, it raises
SequenceError and writes nothing. -/
def Obligations.TencAppendsHeader : Prop :=
  ∀ s : State, s.err = false →
    (s.treeValid = true → s.wr.closed = false →
      exec .tenc s = .next { s with wr := { s.wr with bits := s.wr.bits ++ ser s.tree } }) ∧
    (s.treeValid = false ∨ s.wr.closed = true → exec .tenc s = .next { s with err := true, errcode := 4#4 })

/-- R150, R152, R153: TDEC stores the tree whose header stands at RD's position and moves RD just past it; a header that
needs more than NODE_CAP nodes is a CapacityError and one that the stream ends in a TruncatedHeaderError, after either of
which no tree and no code table is valid. One of the three is the case in every state. -/
def Obligations.TdecReadsHeader : Prop :=
  ∀ s : State, s.err = false →
    (∀ (t : HuffTree) (rest : Bits), deser s.rd.rest = some (t, rest) → t.nodes ≤ 513 →
      exec .tdec s = .next { s with
        rd := { s.rd with pos := s.rd.bits.length - rest.length }
        tree := t
        treeValid := true
        treeSrc := .tdec
        codeValid := false }) ∧
    (∀ (wanted : Nat) (rest : Bits), preorderRead 513 1 s.rd.rest = some (wanted + 1, rest) →
      exec .tdec s = .next { s with
        rd := { s.rd with pos := s.rd.bits.length - rest.length }
        err := true
        errcode := 5#4
        treeValid := false
        codeValid := false }) ∧
    (preorderRead 513 1 s.rd.rest = none →
      exec .tdec s = .next { s with
        rd := { s.rd with pos := s.rd.bits.length }
        err := true
        errcode := 2#4
        treeValid := false
        codeValid := false }) ∧
    ((∃ t rest, deser s.rd.rest = some (t, rest) ∧ t.nodes ≤ 513) ∨
      (∃ wanted rest, preorderRead 513 1 s.rd.rest = some (wanted + 1, rest)) ∨
      preorderRead 513 1 s.rd.rest = none)

/-- R161: PENC appends the code of each unit from RD's position on and then the sentinel's; it stops with NoCodeError at
the first unit without a code, or at the end where the sentinel has none, the codes before it being written; without a
valid table, or with WR closed, it raises SequenceError and reads and writes nothing. -/
def Obligations.PencEncodesUnits : Prop :=
  ∀ s : State, s.err = false →
    (s.codeValid = true → s.wr.closed = false →
      (∀ c : Bits, (∀ u ∈ s.rd.units, (codeAt s.code (symbolOf u)).isSome) → codeAt s.code eos = some c →
        exec .penc s = .next { s with
          rd := { s.rd with pos := s.rd.bits.length }
          wr := { s.wr with
            bits := s.wr.bits ++ s.rd.units.flatMap (fun u => (codeAt s.code (symbolOf u)).getD []) ++ c } }) ∧
      ((∀ u ∈ s.rd.units, (codeAt s.code (symbolOf u)).isSome) → codeAt s.code eos = none →
        exec .penc s = .next { s with
          err := true
          errcode := 7#4
          rd := { s.rd with pos := s.rd.bits.length }
          wr := { s.wr with
            bits := s.wr.bits ++ s.rd.units.flatMap (fun u => (codeAt s.code (symbolOf u)).getD []) } }) ∧
      (∀ (before after : List Byte) (u : Byte), s.rd.units = before ++ u :: after →
        (∀ v ∈ before, (codeAt s.code (symbolOf v)).isSome) → codeAt s.code (symbolOf u) = none →
        exec .penc s = .next { s with
          err := true
          errcode := 7#4
          rd := { s.rd with pos := s.rd.pos + 8 * (before.length + 1) }
          wr := { s.wr with
            bits := s.wr.bits ++ before.flatMap (fun v => (codeAt s.code (symbolOf v)).getD []) } })) ∧
    (s.codeValid = false ∨ s.wr.closed = true → exec .penc s = .next { s with err := true, errcode := 4#4 })

/-- PENC on a table that is the code table of TREE appends Pay(U, TREE) for the units U left in RD (the closed form that
the spec derives in R163). -/
def Obligations.PencWritesPayload : Prop :=
  ∀ s : State, s.err = false → s.codeValid = true → s.wr.closed = false → isCodeTableOf s.code s.tree →
    unitsIn s.rd.units s.tree → eos ∈ s.tree.leaves →
      exec .penc s = .next { s with
        rd := { s.rd with pos := s.rd.bits.length }
        wr := { s.wr with bits := s.wr.bits ++ pay s.rd.units s.tree } }

/-- R173: on a tree that is a single leaf PDEC reads and writes nothing; it succeeds where the leaf is EOS and raises
IllFormedTreeError where it is not. CUR stands on the root; that it keeps that
value after PDEC is the model's choice (DESIGN CHOICE, log entry 5; R23 does not preserve it). -/
def Obligations.PdecSingleLeaf : Prop :=
  ∀ (s : State) (x : Symbol) (w : Nat), s.err = false → s.treeValid = true → s.wr.closed = false → s.tree = .leaf x w →
    (x = 256#9 → exec .pdec s = .next { s with cur := .leaf x w }) ∧
    (x ≠ 256#9 → exec .pdec s = .next { s with cur := .leaf x w, err := true, errcode := 6#4 })

/-- R171: PDEC writes the units that greedy decoding of the bits from RD's position gives, moves RD just past the last bit
used, and ends without error at an EOS leaf, with IllFormedTreeError at a leaf above 256, with TruncatedPayloadError where
the bits run out; a root that is a leaf is decided before the first read; without a tree, or with WR closed, it raises
SequenceError. Greedy decoding is defined on every sequence of bits. That CUR keeps after PDEC the
value of its last step (the EOS leaf, or a root that is a leaf) is the model's choice (DESIGN CHOICE, log entry 5; R23
does not preserve it). -/
def Obligations.PdecDecodesBits : Prop :=
  ∀ s : State, s.err = false →
    (s.treeValid = true → s.wr.closed = false → s.tree.isLeaf = false →
      (∀ (us : List Byte) (e : Ending) (rest : Bits), Decodes s.tree s.rd.rest us e rest →
        ∃ cur : HuffTree, (e = .sentinel → ∃ w, cur = .leaf eos w) ∧ exec .pdec s = .next { s with
          cur := cur
          err := e.error.isSome
          errcode := (e.error.map Error.code).getD s.errcode
          rd := { s.rd with pos := s.rd.bits.length - rest.length }
          wr := { s.wr with bits := s.wr.bits ++ bitsOfBytes us } }) ∧
      ∃ us e rest, Decodes s.tree s.rd.rest us e rest) ∧
    (s.treeValid = true → s.wr.closed = false → s.tree.isLeaf = true →
      exec .pdec s = .next (if s.tree.leaves = [eos] then { s with cur := s.tree }
        else { s with cur := s.tree, err := true, errcode := 6#4 })) ∧
    (s.treeValid = false ∨ s.wr.closed = true → exec .pdec s = .next { s with err := true, errcode := 4#4 })

/-- R187: WMAGIC appends the 32 bits of MAGIC; with WR closed it raises SequenceError and writes nothing. -/
def Obligations.WmagicWritesMagic : Prop :=
  ∀ s : State, s.err = false →
    (s.wr.closed = false → exec .wmagic s = .next { s with wr := { s.wr with bits := s.wr.bits ++ bitsOf Config.magic } }) ∧
    (s.wr.closed = true → exec .wmagic s = .next { s with err := true, errcode := 4#4 })

/-- R188: CMAGIC consumes 32 bits and raises FormatError unless they are MAGIC; with fewer than 32 bits left it consumes
them and raises FormatError. -/
def Obligations.CmagicChecksMagic : Prop :=
  ∀ s : State, s.err = false →
    (∀ x : Bits, s.rd.rest = bitsOf Config.magic ++ x →
      exec .cmagic s = .next { s with rd := { s.rd with pos := s.rd.pos + 32 } }) ∧
    (∀ (v : BitVec 32) (x : Bits), s.rd.rest = bitsOf v ++ x → v ≠ Config.magic →
      exec .cmagic s = .next { s with rd := { s.rd with pos := s.rd.pos + 32 }, err := true, errcode := 1#4 }) ∧
    (s.rd.rest.length < 32 →
      exec .cmagic s = .next { s with rd := { s.rd with pos := s.rd.bits.length }, err := true, errcode := 1#4 })

/-- R190: REWIND sets RD's position to 0 and changes nothing else. -/
def Obligations.RewindReplaysStream : Prop :=
  ∀ s : State, s.err = false → exec .rewind s = .next { s with rd := { s.rd with pos := 0 } }

/-- R191, R60: CLOSE pads WR to a whole byte with PAD_BIT and closes it, also while ERR is set; on a closed WR it does
nothing. -/
def Obligations.ClosePadsAndCloses : Prop :=
  ∀ s : State,
    (s.wr.closed = false →
      exec .close s = .next { s with wr := {
        bits := s.wr.bits ++ List.replicate ((8 - s.wr.bits.length % 8) % 8) Config.padBit
        closed := true } }) ∧
    (s.wr.closed = true → exec .close s = .next s)

/-- R195: CLEAR, also while ERR is set, puts every flag and table of the block to its reset value and leaves the ports
alone: the state after it is the state after reset, with the ports and the host's side as they were. TREE and CUR, which
R195 does not write and R46 calls unspecified, are as they were: that is the model's choice (DESIGN CHOICE, log entry 5). -/
def Obligations.ClearRestoresReset : Prop :=
  ∀ s : State,
    exec .clear s = .next { State.reset with tree := s.tree, cur := s.cur, rd := s.rd, wr := s.wr, host := s.host }

/-- What COMPRESS writes: with WR open it counts the whole stream, builds the tree and the code table, appends magic, header
and payload to WR and closes it, and raises nothing (the closed form that the spec derives in R198, on any WR). With WR
closed it raises SequenceError and does nothing else. -/
def Obligations.CompressWritesFile : Prop :=
  ∀ s : State, s.err = false →
    (s.wr.closed = false →
      ∃ (t : HuffTree) (table : CodeTable),
        t = buildTree (Config.tie (countsOf Config.params s.rd.bytes)) (countsOf Config.params s.rd.bytes) ∧
        isCodeTableOf table t ∧
        exec .compress s = .next { s with
          freq := countsOf Config.params s.rd.bytes
          tree := t
          treeValid := true
          treeSrc := .tbuild
          code := table
          codeValid := true
          rd := { s.rd with pos := s.rd.bits.length }
          wr := {
            bits := padded Config.padBit (s.wr.bits ++ bitsOf Config.magic ++ ser t ++ pay s.rd.bytes t)
            closed := true } }) ∧
    (s.wr.closed = true → exec .compress s = .next { s with err := true, errcode := 4#4 })

/-- R197: COMPRESS, with WR open, is REWIND, FCOUNT, REWIND, TBUILD, CTGEN, WMAGIC, TENC, PENC and CLOSE in order, and no step
raises. With WR closed it raises SequenceError and does nothing else. -/
def Obligations.CompressIsScript : Prop :=
  ∀ s : State, s.err = false →
    (s.wr.closed = false →
      ∃ s1 s2 s3 s4 s5 s6 s7 s8 s9 : State,
        exec .rewind s = .next s1 ∧ exec .fcount s1 = .next s2 ∧ exec .rewind s2 = .next s3 ∧ exec .tbuild s3 = .next s4 ∧
        exec .ctgen s4 = .next s5 ∧ exec .wmagic s5 = .next s6 ∧ exec .tenc s6 = .next s7 ∧ exec .penc s7 = .next s8 ∧
        exec .close s8 = .next s9 ∧ exec .compress s = .next s9 ∧
        s9.err = false ∧ s9.treeValid = true ∧ s9.treeSrc = .tbuild ∧ s9.codeValid = true ∧
        s9.rd.pos = s.rd.bits.length ∧ s9.wr.closed = true) ∧
    (s.wr.closed = true → exec .compress s = .next { s with err := true, errcode := 4#4 })

/-- R199: DECOMPRESS, with WR open, is CMAGIC, TDEC and PDEC in order, stopping at the first that raises, and then the
closing of WR whether or not one raised. With WR closed it raises SequenceError and does nothing else. -/
def Obligations.DecompressIsScript : Prop :=
  ∀ s : State, s.err = false →
    (s.wr.closed = false →
      ∃ s1 s2 s3 s4 : State, exec .cmagic s = .next s1 ∧
        (s1.err = true → s3 = s1) ∧
        (s1.err = false → exec .tdec s1 = .next s2 ∧ (s2.err = true → s3 = s2) ∧ (s2.err = false → exec .pdec s2 = .next s3)) ∧
        exec .close s3 = .next s4 ∧ exec .decompress s = .next s4 ∧ s4.wr.closed = true ∧
        (s4.err = false → s4.treeValid = true ∧ s4.treeSrc = .tdec ∧ s4.codeValid = false ∧
          s4.tree.unweighted = s4.tree)) ∧
    (s.wr.closed = true → exec .decompress s = .next { s with err := true, errcode := 4#4 })

/-- DECOMPRESS of a file that stands at RD's position: magic, the header of a complete tree, the payload of units that
have leaves in it, and then anything. It raises nothing, writes exactly the units and leaves the rest unread (R199 with
the payload inversion that the spec derives in R176). That CUR is left on the EOS leaf is the model's choice (DESIGN
CHOICE, log entry 5). -/
def Obligations.DecompressReadsFile : Prop :=
  ∀ (s : State) (t : HuffTree) (us : List Byte) (x : Bits), s.err = false → s.wr.closed = false →
    t.complete = true → unitsIn us t → s.rd.rest = bitsOf Config.magic ++ ser t ++ pay us t ++ x →
      exec .decompress s = .next { s with
        tree := t.unweighted
        treeValid := true
        treeSrc := .tdec
        codeValid := false
        cur := .leaf eos 0
        rd := { s.rd with pos := s.rd.bits.length - x.length }
        wr := { bits := padded Config.padBit (s.wr.bits ++ bitsOfBytes us), closed := true } }

/-- Round trip (the document's first testable property, which the spec derives in R201): a stream of bytes compressed
into a fresh WR, and the file so made decompressed into a fresh WR, gives those bytes, and neither command raises. -/
def Obligations.RoundTrip : Prop :=
  ∀ (s : State) (bytes : List Byte), s.err = false →
    s.rd = ReadPort.attached bytes → s.wr = WritePort.attached →
      ∃ t u : State, exec .compress s = .next t ∧ t.err = false ∧ t.wr.closed = true ∧
        exec .decompress { t with rd := ReadPort.attached t.wr.bytes, wr := WritePort.attached } = .next u ∧
        u.err = false ∧ u.wr.closed = true ∧ u.wr.bytes = bytes ∧ u.wr.bits = bitsOfBytes bytes

/-- Determinism (the spec derives it in R202): on a fresh WR, what COMPRESS writes depends on the attached bits alone, and
what DECOMPRESS writes, and how it ends, on the read port alone, whatever else the two states hold. -/
def Obligations.CompositesDeterministic : Prop :=
  ∀ a b : State, a.err = false → b.err = false → a.wr = WritePort.attached → b.wr = WritePort.attached →
    (a.rd.bits = b.rd.bits →
      ∃ t u : State, exec .compress a = .next t ∧ exec .compress b = .next u ∧ t.wr = u.wr ∧ t.tree = u.tree ∧
        t.freq = u.freq ∧ t.code = u.code) ∧
    (a.rd = b.rd →
      ∃ t u : State, exec .decompress a = .next t ∧ exec .decompress b = .next u ∧ t.wr = u.wr ∧ t.rd = u.rd ∧
        t.err = u.err ∧ (t.err = true → t.errcode = u.errcode))

/-! ### Errors -/

/-- R217: while ERR is set a word written to CMD has no effect whatever, a command or not, unless it is NOP, CLOSE or
CLEAR; NOP does nothing, CLOSE closes WR, CLEAR clears the error. -/
def Obligations.GateIgnoresCommands : Prop :=
  ∀ (s : State) (w : Byte) (rest : List HostAction), s.err = true → s.host.script = .cmd w :: rest →
    (w ≠ 0x0B#8 → w ≠ 0x0E#8 → step s = .next { s with host := { s.host with script := rest } }) ∧
    (w = 0x0B#8 → step s = .next { s with
      wr := s.wr.close Config.padBit, host := { s.host with script := rest } }) ∧
    (w = 0x0E#8 → ∃ t : State, step s = .next t ∧ t.err = false ∧ t.errcode = 0#4 ∧ t.rd = s.rd ∧ t.wr = s.wr)

/-- ERR is left only by CLEAR or reset, and ERRCODE keeps the first error's code until then (R39, R217; the spec derives
it in R220). -/
def Obligations.ErrorsAreSticky : Prop :=
  ∀ s t : State, s.err = true → step s = .next t →
    (t.err = true ∧ t.errcode = s.errcode) ∨
      ∃ rest, s.host.script = .cmd 0x0E#8 :: rest ∨ s.host.script = .access .reset :: rest

/-- Which command can end with which error (the table that the spec derives in R214), with its code (R211). -/
def Obligations.ErrorsPerCommand : Prop :=
  ∀ (i : Instr) (s t : State), s.err = false → exec i s = .next t →
    (t.err = false ∧ t.errcode = s.errcode) ∨ (i = .clear ∧ t.err = false ∧ t.errcode = 0#4) ∨
      (t.err = true ∧ ∃ e ∈ mayRaise i, t.errcode = e.code)

/-- What error entry leaves (part of R216): a raising TDEC, alone or in DECOMPRESS, leaves no valid tree or table, a
raising CTGEN no valid table, a raising DECOMPRESS a closed WR; FREQ and the CODE entries keep their values, and TREE and
its source too unless DECOMPRESS had stored a new one. -/
def Obligations.ErrorEntryLeaves : Prop :=
  ∀ (i : Instr) (s t : State), s.err = false → exec i s = .next t → t.err = true →
    (i = .tdec → t.treeValid = false ∧ t.codeValid = false) ∧
    (i = .ctgen → t.codeValid = false ∧ t.treeValid = s.treeValid) ∧
    (i = .decompress → t.wr.closed = true) ∧
    (i = .decompress → t.errcode = 2#4 ∨ t.errcode = 5#4 → t.treeValid = false ∧ t.codeValid = false) ∧
    (i ≠ .decompress → t.tree = s.tree ∧ t.treeSrc = s.treeSrc) ∧
    (i ≠ .tdec → i ≠ .ctgen → i ≠ .decompress → t.treeValid = s.treeValid ∧ t.codeValid = s.codeValid) ∧
    t.freq = s.freq ∧ t.code = s.code ∧ t.host = s.host

/-- A stale code table is never used: after a TBUILD, and after a TDEC that ends either way, PENC raises without reading
or writing, by the gate where TDEC raised (R35, R71, R162). -/
def Obligations.StaleTableRefused : Prop :=
  ∀ (i : Instr) (s t : State), i = .tbuild ∨ i = .tdec → s.err = false → exec i s = .next t →
    exec .penc t = .next (if t.err then t else { t with err := true, errcode := 4#4 })

/-! ### Frames -/

/-- Which commands write which table, flag and pointer (the columns of R20): whatever the outcome, a command not named
leaves the element as it was. No command touches the host's side. That TREE keeps its value over CLEAR, and CUR its
value over a command, is the model's choice (DESIGN CHOICE, log entry 5). -/
def Obligations.TablesFrame : Prop :=
  ∀ (i : Instr) (s t : State), exec i s = .next t →
    t.host = s.host ∧
    (i ∉ [Instr.fcount, .compress, .clear] → t.freq = s.freq) ∧
    (i ∉ [Instr.tbuild, .tdec, .compress, .decompress] → t.tree = s.tree) ∧
    (i ∉ [Instr.ctgen, .compress, .clear] → t.code = s.code) ∧
    (i ∉ [Instr.pdec, .decompress] → t.cur = s.cur) ∧
    (i ∉ [Instr.tbuild, .tdec, .compress, .decompress, .clear] → t.treeValid = s.treeValid ∧ t.treeSrc = s.treeSrc) ∧
    (i ∉ [Instr.tbuild, .tdec, .ctgen, .compress, .decompress, .clear] → t.codeValid = s.codeValid) ∧
    (i ∈ [Instr.nop, .fcount, .tbuild, .rewind, .close] → t.err = s.err ∧ t.errcode = s.errcode)

/-- What commands do to the ports, whatever the outcome: the attached bits of RD never change, its position only by the
reading commands and REWIND; WR only grows, never on a closed port, only by the writing commands, and closes only by
CLOSE and the composites (R51, R52, R58, R65). -/
def Obligations.PortsFrame : Prop :=
  ∀ (i : Instr) (s t : State), exec i s = .next t →
    t.rd.bits = s.rd.bits ∧
    (i ∉ [Instr.fcount, .penc, .pdec, .cmagic, .tdec, .rewind, .compress, .decompress] → t.rd = s.rd) ∧
    (∃ more : Bits, t.wr.bits = s.wr.bits ++ more) ∧
    (s.wr.closed = true → t.wr = s.wr) ∧
    (i ∉ [Instr.wmagic, .tenc, .penc, .pdec, .close, .compress, .decompress] → t.wr = s.wr) ∧
    (i ∉ [Instr.close, .compress, .decompress] → t.wr.closed = s.wr.closed)

/-! ### The invariant -/

/-- The invariant holds after reset. It speaks also of values that log entries 4 and 5 choose. -/
def Obligations.InvariantAtReset : Prop := State.reset.Inv Config.params

/-- Every step keeps the invariant (the rules of a reachable state that the spec derives in R222, with the bounds of
R25, R29, R31, R34, R39, R51). -/
def Obligations.StepKeepsInvariant : Prop :=
  ∀ s t : State, s.Inv Config.params → step s = .next t → t.Inv Config.params

/-! ### Trees, headers and codes -/

/-- Deser inverts Ser up to weights, and gives back only what Ser writes (the inverse laws that the spec derives in R84). -/
def Obligations.HeaderInverses : Prop :=
  (∀ (t : HuffTree) (x : Bits), deser (ser t ++ x) = some (t.unweighted, x)) ∧
  ∀ (b rest : Bits) (t : HuffTree), deser b = some (t, rest) → ser t ++ rest = b

/-- Headers are prefix free: where one header begins another, the trees are the same up to weights (from R84). -/
def Obligations.HeaderPrefixFree : Prop :=
  ∀ (t u : HuffTree) (x : Bits), ser u = ser t ++ x → x = [] ∧ t.unweighted = u.unweighted

/-- The length of a header, and the counts of a full binary tree (the spec derives them in R31 and R85). -/
def Obligations.HeaderLength : Prop :=
  ∀ t : HuffTree, (ser t).length = 11 * t.leaves.length - 1 ∧ t.nodes = 2 * t.leaves.length - 1 ∧
    t.depth + 1 ≤ t.leaves.length

/-- A tree that fits the tree store has at most 257 leaves, depth at most 256, codes of at most 256 bits and a header of
at most 2826 bits (the spec derives it in R31 and R85). -/
def Obligations.StoredTreeBounds : Prop :=
  ∀ t : HuffTree, t.nodes ≤ nodeCap → t.leaves.length ≤ 257 ∧ t.depth ≤ 256 ∧ (ser t).length ≤ 2826 ∧
    ∀ (x : Symbol) (c : Bits), path t x = some c → c.length ≤ 256

/-- TENC then TDEC gives the tree back with all weights 0 and stops just after the header, whatever follows it (the
inverses that the spec derives in R155). -/
def Obligations.TencTdecInverse : Prop :=
  ∀ (s u : State) (x : Bits), s.err = false → s.treeValid = true → s.wr = WritePort.attached → s.tree.nodes ≤ nodeCap →
    u.err = false →
      ∃ t : State, exec .tenc s = .next t ∧
        (u.rd = { bits := t.wr.bits ++ x, pos := 0 } →
          exec .tdec u = .next { u with
            rd := { bits := t.wr.bits ++ x, pos := t.wr.bits.length }
            tree := s.tree.unweighted
            treeValid := true
            treeSrc := .tdec
            codeValid := false })

/-- Prefix property (R36): in the code table of a valid state whose tree has more than one node, no present entry is a
prefix of another; where the tree is a single leaf, its symbol's entry is the one present and is empty. -/
def Obligations.PrefixProperty : Prop :=
  ∀ s : State, s.Inv Config.params → s.codeValid = true →
    (s.tree.nodes > 1 → ∀ (i j : Fin 257) (c d : Bits), i ≠ j →
      s.code[i.val]'i.isLt = some c → s.code[j.val]'j.isLt = some d → ¬ c <+: d) ∧
    ∀ (x : Symbol) (w : Nat), s.tree = .leaf x w →
      x.toNat < 257 ∧ ∀ i : Fin 257, s.code[i.val]'i.isLt = if i.val = x.toNat then some [] else none

/-- Kraft equality: over the symbols that have a leaf, the sum of 2^(-length of the code) is 1 (the spec derives it in
R134). -/
def Obligations.KraftEquality : Prop :=
  ∀ t : HuffTree, t.wellFormed = true →
    ∑ i : Fin 257, kraftShare (path t (BitVec.ofNat 9 i.val)) = 1

/-- What every tree the greedy procedure can build satisfies, whatever the tie-breaks (the spec derives it in R116 and
R118). -/
def Obligations.BuiltTreeProperties : Prop :=
  ∀ (f : FreqTable) (t : HuffTree), Huff f t →
    t.leaves.Perm (presentSymbols f) ∧ t.complete = true ∧ t.weighs f ∧ t.weight = (freqTable f).sum ∧
    t.nodes = 2 * (presentSymbols f).length - 1 ∧ t.nodes ≤ nodeCap ∧ t.depth ≤ 256 ∧
    ((∀ k < 256, freqAt f k = 0) → t = .leaf eos 1) ∧ ((∃ k < 256, freqAt f k ≠ 0) → t.isLeaf = false)

/-- The policies the model can be given are exactly the deterministic choices within Huff: every decision function builds
a tree in Huff, and every tree in Huff is built by some decision function (R113; the form of the policy is the model's,
log entry 2). -/
def Obligations.PoliciesAreHuff : Prop :=
  ∀ f : FreqTable, (∀ choice : Nat → Config.TieChoice, Huff f (buildTree choice f)) ∧
    ∀ t : HuffTree, Huff f t → ∃ choice : Nat → Config.TieChoice, buildTree choice f = t

/-- The default policy of R114 (no claim about the block's own policy, which is open): each merge removes the earliest of
the lowest-weight nodes, then the earliest of the lowest-weight nodes of the rest, and makes the first removed the left
child; so no left child weighs more than its sibling. -/
def Obligations.DefaultPolicyOrder : Prop :=
  (∀ q : List HuffTree, 2 ≤ q.length →
    ∃ (p r p' r' : List HuffTree) (a b : HuffTree),
      q = p ++ a :: r ∧ (∀ x ∈ p, a.weight < x.weight) ∧ (∀ x ∈ r, a.weight ≤ x.weight) ∧
      p ++ r = p' ++ b :: r' ∧ (∀ x ∈ p', b.weight < x.weight) ∧ (∀ x ∈ r', b.weight ≤ x.weight) ∧
      mergeOnce ⟨0, 0, false⟩ q = p' ++ r' ++ [.node (a.weight + b.weight) a b]) ∧
  ∀ f : FreqTable, (buildTree (Config.defaults.tie f) f).lightLeft

/-- PDEC inverts the payload: on a complete tree, with the payload of units that have leaves in it at RD's position and
anything after it, PDEC writes exactly the units and leaves the rest unread (the spec derives it in R176). That
CUR is left on the EOS leaf is the model's choice (DESIGN CHOICE, log entry 5). -/
def Obligations.PdecInvertsPayload : Prop :=
  ∀ (s : State) (us : List Byte) (x : Bits), s.err = false → s.treeValid = true → s.wr.closed = false →
    s.tree.complete = true → unitsIn us s.tree → s.rd.rest = pay us s.tree ++ x →
      ∃ w : Nat, exec .pdec s = .next { s with
        cur := .leaf eos w
        rd := { s.rd with pos := s.rd.pos + (pay us s.tree).length }
        wr := { s.wr with bits := s.wr.bits ++ bitsOfBytes us } }

/-- Truncation: where the bits at RD's position are a proper beginning of a payload, PDEC ends with TruncatedPayloadError,
having written a beginning of the units and read all there was (the spec derives it in R177). -/
def Obligations.TruncatedPayloadDetected : Prop :=
  ∀ (s : State) (us : List Byte) (cut : Bits), s.err = false → s.treeValid = true → s.wr.closed = false →
    s.tree.complete = true → unitsIn us s.tree → s.rd.rest ++ cut = pay us s.tree → cut ≠ [] →
      ∃ (cur : HuffTree) (done : List Byte), done <+: us ∧ exec .pdec s = .next { s with
        cur := cur
        err := true
        errcode := 3#4
        rd := { s.rd with pos := s.rd.bits.length }
        wr := { s.wr with bits := s.wr.bits ++ bitsOfBytes done } }
end

