-- ==== Sys2Proof/Laws/Bits.lean ====
section
/-!
SUPPORT. bits_n and val are inverse, and so are packing bits into bytes and spelling bytes as bits
(spec/00_scope.md R13, spec/20_memory.md R54, R61).
-/

namespace Sys2Proof.Machine

@[simp] theorem length_bitsOf {n : Nat} (v : BitVec n) : (bitsOf v).length = n := by simp [bitsOf]

/-- `bits_n(v)[i] = v[n-1-i]` (R13). -/
theorem getElem_bitsOf {n : Nat} (v : BitVec n) (i : Nat) (h : i < (bitsOf v).length) :
    (bitsOf v)[i] = v.getMsbD i := by simp [bitsOf]

@[simp] theorem valOf_nil : valOf [] = 0 := rfl

theorem valOf_concat (b : Bits) (x : Bool) : valOf (b ++ [x]) = 2 * valOf b + x.toNat := by
  simp [valOf, List.foldl_append]

theorem valOf_cons (x : Bool) (b : Bits) : valOf (x :: b) = x.toNat * 2 ^ b.length + valOf b := by
  induction b using List.reverseRecOn with
  | nil => simp [valOf]
  | append_singleton b y ih =>
    rw [← List.cons_append, valOf_concat, ih, valOf_concat]
    simp [Nat.pow_succ]
    ring

theorem valOf_lt (b : Bits) : valOf b < 2 ^ b.length := by
  induction b with
  | nil => simp
  | cons x b ih =>
    rw [valOf_cons, List.length_cons, Nat.pow_succ]
    cases x <;> simp <;> omega

/-- Two sequences of one length that spell the same value are the same sequence. -/
theorem valOf_injective {a b : Bits} (hlen : a.length = b.length) (hval : valOf a = valOf b) : a = b := by
  induction a generalizing b with
  | nil => exact (List.eq_nil_of_length_eq_zero hlen.symm).symm
  | cons x a ih =>
    cases b with
    | nil => simp at hlen
    | cons y b =>
      have hl : a.length = b.length := by simpa using hlen
      rw [valOf_cons, valOf_cons, hl] at hval
      have ha := valOf_lt a
      have hb := valOf_lt b
      rw [hl] at ha
      cases x <;> cases y <;> simp at hval
      · rw [ih hl hval]
      · omega
      · omega
      · rw [ih hl hval]

theorem bitsOf_eq_cons {n : Nat} (v : BitVec (n + 1)) : bitsOf v = v.msb :: bitsOf (v.setWidth n) := by
  apply List.ext_getElem
  · simp
  · intro i h1 h2
    rw [getElem_bitsOf]
    cases i with
    | zero => simp [BitVec.msb]
    | succ i =>
      simp only [length_bitsOf] at h1
      rw [List.getElem_cons_succ, getElem_bitsOf]
      simp only [BitVec.getMsbD, BitVec.getLsbD_setWidth]
      have l1 : i + 1 < n + 1 := by omega
      have l2 : i < n := by omega
      have l3 : n - 1 - i < n := by omega
      have e : n + 1 - 1 - (i + 1) = n - 1 - i := by omega
      simp only [l1, l2, l3, e, decide_true, Bool.true_and]

@[simp] theorem valOf_bitsOf {n : Nat} (v : BitVec n) : valOf (bitsOf v) = v.toNat := by
  induction n with
  | zero => simp [bitsOf, BitVec.eq_nil v]
  | succ n ih =>
    rw [bitsOf_eq_cons, valOf_cons, ih, length_bitsOf, BitVec.toNat_setWidth, BitVec.msb_eq_decide]
    have hlt : v.toNat < 2 ^ n * 2 := by simpa [Nat.pow_succ] using v.isLt
    by_cases h : 2 ^ n ≤ v.toNat
    · have e : v.toNat % 2 ^ n = v.toNat - 2 ^ n := by
        rw [Nat.mod_eq_sub_mod h, Nat.mod_eq_of_lt (by omega)]
      simp [h, e]
    · simp [h, Nat.mod_eq_of_lt (Nat.lt_of_not_le h)]

/-- `bits_n` spells back what `val` read (R13). -/
theorem bitsOf_valOf {n : Nat} {b : Bits} (h : b.length = n) : bitsOf (BitVec.ofNat n (valOf b)) = b := by
  subst h
  refine valOf_injective (by simp) ?_
  rw [valOf_bitsOf, BitVec.toNat_ofNat, Nat.mod_eq_of_lt (valOf_lt b)]

/-- The value of the bits of `v` is `v`. -/
@[simp] theorem ofNat_valOf_bitsOf {n : Nat} (v : BitVec n) : BitVec.ofNat n (valOf (bitsOf v)) = v := by simp

theorem bitsOf_injective {n : Nat} {v w : BitVec n} (h : bitsOf v = bitsOf w) : v = w := by
  rw [← ofNat_valOf_bitsOf v, h, ofNat_valOf_bitsOf]

/-! ### Bytes -/

@[simp] theorem bitsOfBytes_nil : bitsOfBytes [] = [] := rfl

@[simp] theorem bitsOfBytes_cons (b : Byte) (l : List Byte) : bitsOfBytes (b :: l) = bitsOf b ++ bitsOfBytes l := rfl

@[simp] theorem length_bitsOfBytes (l : List Byte) : (bitsOfBytes l).length = 8 * l.length := by
  induction l with
  | nil => rfl
  | cons b l ih => simp [ih]; omega

theorem bytesOfBits_short {b : Bits} (h : b.length < 8) : bytesOfBits b = [] := by
  unfold bytesOfBits
  split
  · simp at h; omega
  · rfl

theorem bytesOfBits_append {a b : Bits} (h : a.length = 8) :
    bytesOfBits (a ++ b) = BitVec.ofNat 8 (valOf a) :: bytesOfBits b := by
  match a, h with
  | [_, _, _, _, _, _, _, _], _ => rfl

@[simp] theorem bytesOfBits_bitsOf_append (v : Byte) (b : Bits) : bytesOfBits (bitsOf v ++ b) = v :: bytesOfBits b := by
  rw [bytesOfBits_append (length_bitsOf v), ofNat_valOf_bitsOf]

/-- Bytes spelled as bits, with fewer than 8 bits after them, are those bytes again (R61). -/
theorem bytesOfBits_bitsOfBytes_append (l : List Byte) {x : Bits} (h : x.length < 8) :
    bytesOfBits (bitsOfBytes l ++ x) = l := by
  induction l with
  | nil => simpa using bytesOfBits_short h
  | cons b l ih => rw [bitsOfBytes_cons, List.append_assoc, bytesOfBits_bitsOf_append, ih]

@[simp] theorem bytesOfBits_bitsOfBytes (l : List Byte) : bytesOfBits (bitsOfBytes l) = l := by
  simpa using bytesOfBits_bitsOfBytes_append l (x := []) (by simp)

/-- Every sequence is its whole bytes and fewer than 8 bits more (R61). -/
theorem bits_split (b : Bits) : ∃ (l : List Byte) (x : Bits), b = bitsOfBytes l ++ x ∧ x.length < 8 := by
  induction hn : b.length using Nat.strong_induction_on generalizing b with
  | _ n ih =>
    by_cases h : b.length < 8
    · exact ⟨[], b, by simp, h⟩
    · have h8 : (b.take 8).length = 8 := by simp; omega
      obtain ⟨l, x, hb, hx⟩ := ih (b.drop 8).length (by simp; omega) (b.drop 8) rfl
      refine ⟨BitVec.ofNat 8 (valOf (b.take 8)) :: l, x, ?_, hx⟩
      rw [bitsOfBytes_cons, bitsOf_valOf h8, List.append_assoc, ← hb, List.take_append_drop]

theorem length_bytesOfBits (b : Bits) : (bytesOfBits b).length = b.length / 8 := by
  obtain ⟨l, x, rfl, hx⟩ := bits_split b
  rw [bytesOfBits_bitsOfBytes_append l hx, List.length_append, length_bitsOfBytes]
  omega

/-- The bytes of a sequence of whole bytes spell it back (R54, R61). -/
theorem bitsOfBytes_bytesOfBits {b : Bits} (h : b.length % 8 = 0) : bitsOfBytes (bytesOfBits b) = b := by
  obtain ⟨l, x, rfl, hx⟩ := bits_split b
  have hx0 : x = [] := by
    simp only [List.length_append, length_bitsOfBytes] at h
    exact List.eq_nil_of_length_eq_zero (by omega)
  subst hx0
  simp

end Sys2Proof.Machine
end

