-- ==== Sys2Proof/Laws/Ports.lean ====
section
/-!
SUPPORT. What the port operations do (spec/20_memory.md R51 to R62), and that each keeps the ports well formed.
-/

namespace Sys2Proof.Machine

open Sys2Proof.Config

/-! ### Reading -/

theorem ReadPort.length_rest (rd : ReadPort) : rd.rest.length = rd.remaining := by simp [ReadPort.rest, ReadPort.remaining]

/-- Everything `readBits` can do (R55), in terms of the bits left: the next `n` bits of them, or `END`. -/
theorem ReadPort.readBits_spec (n : Nat) (rd : ReadPort) (hn : 0 < n) :
    (∃ (v : BitVec n) (x : Bits), rd.rest = bitsOf v ++ x ∧
        rd.readBits n = (some v, { rd with pos := rd.pos + n }) ∧
        ReadPort.rest { rd with pos := rd.pos + n } = x) ∨
      (rd.rest.length < n ∧ rd.readBits n = (none, { rd with pos := rd.bits.length })) := by
  by_cases h : rd.pos + n ≤ rd.bits.length
  · refine Or.inl ⟨BitVec.ofNat n (valOf (rd.rest.take n)), rd.rest.drop n, ?_, ?_, ?_⟩
    · rw [bitsOf_valOf (by simp [ReadPort.rest]; omega), List.take_append_drop]
    · simp [ReadPort.readBits, h, ReadPort.rest]
    · simp [ReadPort.rest, List.drop_drop]
  · refine Or.inr ⟨?_, ?_⟩
    · simp [ReadPort.rest]; omega
    · simp [ReadPort.readBits, h]

/-- Reading where the next bits are those of `v`. -/
theorem ReadPort.readBits_of_rest {n : Nat} {rd : ReadPort} {v : BitVec n} {x : Bits} (hn : 0 < n)
    (h : rd.rest = bitsOf v ++ x) :
    rd.readBits n = (some v, { rd with pos := rd.pos + n }) ∧ ReadPort.rest { rd with pos := rd.pos + n } = x := by
  rcases rd.readBits_spec n hn with ⟨w, y, hr, hread, hrest⟩ | ⟨hlt, -⟩
  · rw [h] at hr
    have hvw : bitsOf v = bitsOf w ∧ x = y := List.append_inj hr (by simp)
    rw [bitsOf_injective hvw.1, hvw.2]
    exact ⟨hread, hrest⟩
  · rw [h] at hlt; simp at hlt

/-- Reading past the end (R55). -/
theorem ReadPort.readBits_of_short {n : Nat} {rd : ReadPort} (h : rd.rest.length < n) :
    rd.readBits n = (none, { rd with pos := rd.bits.length }) := by
  rcases rd.readBits_spec n (by omega) with ⟨w, y, hr, -, -⟩ | ⟨-, hread⟩
  · rw [hr] at h; simp at h
  · exact hread

/-- A read never changes the attached bits (R51). -/
theorem ReadPort.readBits_bits (n : Nat) (rd : ReadPort) : (rd.readBits n).2.bits = rd.bits := by
  unfold ReadPort.readBits; split <;> rfl

theorem ReadPort.readBits_wf {n : Nat} {rd : ReadPort} (h : rd.wf) : (rd.readBits n).2.wf := by
  unfold ReadPort.readBits
  split
  · exact ⟨by assumption, h.2⟩
  · exact ⟨Nat.le_refl _, h.2⟩

theorem ReadPort.rewound_wf {rd : ReadPort} (h : rd.wf) : rd.rewound.wf := ⟨Nat.zero_le _, h.2⟩

theorem ReadPort.attached_wf (bytes : List Byte) : (ReadPort.attached bytes).wf :=
  ⟨Nat.zero_le _, by simp [ReadPort.attached]⟩

theorem ReadPort.rest_attached (bytes : List Byte) : (ReadPort.attached bytes).rest = bitsOfBytes bytes := rfl

/-! ### Writing -/

@[simp] theorem WritePort.writeSeq_bits (wr : WritePort) (b : Bits) : (wr.writeSeq b).bits = wr.bits ++ b := rfl
@[simp] theorem WritePort.writeSeq_closed (wr : WritePort) (b : Bits) : (wr.writeSeq b).closed = wr.closed := rfl
@[simp] theorem WritePort.writeBits_bits {n : Nat} (wr : WritePort) (v : BitVec n) :
    (wr.writeBits v).bits = wr.bits ++ bitsOf v := rfl
@[simp] theorem WritePort.writeBits_closed {n : Nat} (wr : WritePort) (v : BitVec n) :
    (wr.writeBits v).closed = wr.closed := rfl

@[simp] theorem WritePort.writeSeq_nil (wr : WritePort) : wr.writeSeq [] = wr := by simp [WritePort.writeSeq]

theorem WritePort.writeSeq_writeSeq (wr : WritePort) (a b : Bits) :
    (wr.writeSeq a).writeSeq b = wr.writeSeq (a ++ b) := by simp [WritePort.writeSeq]

theorem WritePort.writeBits_eq {n : Nat} (wr : WritePort) (v : BitVec n) : wr.writeBits v = wr.writeSeq (bitsOf v) := rfl

theorem WritePort.writeSeq_wf {wr : WritePort} (b : Bits) (h : wr.closed = false) : (wr.writeSeq b).wf := by
  intro hc; simp [h] at hc

/-! ### Closing -/

theorem padCount_lt (n : Nat) : padCount n < 8 := Nat.mod_lt _ (by decide)

theorem add_padCount (n : Nat) : (n + padCount n) % 8 = 0 := by unfold padCount; omega

theorem WritePort.close_of_open {wr : WritePort} (padBit : Bool) (h : wr.closed = false) :
    wr.close padBit = { bits := padded padBit wr.bits, closed := true } := by
  simp [WritePort.close, h, padded, padCount]

theorem WritePort.close_of_closed {wr : WritePort} (padBit : Bool) (h : wr.closed = true) : wr.close padBit = wr := by
  simp [WritePort.close, h]

@[simp] theorem WritePort.close_closed (padBit : Bool) (wr : WritePort) : (wr.close padBit).closed = true := by
  unfold WritePort.close; split
  · assumption
  · rfl

theorem length_padded (padBit : Bool) (b : Bits) : (padded padBit b).length % 8 = 0 := by
  have := add_padCount b.length
  simpa [padded, padCount] using this

/-- Closing a well-formed port leaves whole bytes (R60, R61). -/
theorem WritePort.close_wf {wr : WritePort} (padBit : Bool) (h : wr.wf) : (wr.close padBit).wf := by
  cases hc : wr.closed with
  | true => rw [WritePort.close_of_closed padBit hc]; exact h
  | false => rw [WritePort.close_of_open padBit hc]; exact fun _ => length_padded padBit wr.bits

theorem WritePort.attached_wf : WritePort.attached.wf := fun h => by simp [WritePort.attached] at h

end Sys2Proof.Machine
end

