-- ==== Sys2Proof/Laws/Header.lean ====
section
/-!
SUPPORT. What the header writer and the header reader do (spec/43_tree_codec.md R141, R150), in terms of Ser and of the
preorder count of spec/30_encoding.md R81, R83.
-/

namespace Sys2Proof.Machine

/-! ### Trees -/

@[simp] theorem HuffTree.unweighted_leaves (t : HuffTree) : t.unweighted.leaves = t.leaves := by
  induction t with
  | leaf => rfl
  | node w l r ihl ihr => simp [HuffTree.unweighted, HuffTree.leaves, ihl, ihr]

@[simp] theorem HuffTree.unweighted_nodes (t : HuffTree) : t.unweighted.nodes = t.nodes := by
  induction t with
  | leaf => rfl
  | node w l r ihl ihr => simp [HuffTree.unweighted, HuffTree.nodes, ihl, ihr]

@[simp] theorem HuffTree.unweighted_unweighted (t : HuffTree) : t.unweighted.unweighted = t.unweighted := by
  induction t with
  | leaf => rfl
  | node w l r ihl ihr => simp [HuffTree.unweighted, ihl, ihr]

@[simp] theorem ser_unweighted (t : HuffTree) : ser t.unweighted = ser t := by
  induction t with
  | leaf => rfl
  | node w l r ihl ihr => simp [HuffTree.unweighted, ser, ihl, ihr]

theorem HuffTree.nodes_pos (t : HuffTree) : 0 < t.nodes := by cases t <;> simp [HuffTree.nodes]

theorem HuffTree.leaves_ne_nil (t : HuffTree) : t.leaves ≠ [] := by
  induction t with
  | leaf => simp [HuffTree.leaves]
  | node w l r ihl ihr => simp [HuffTree.leaves, ihl]

/-! ### Writing -/

@[simp] theorem bitsOf_one : bitsOf 1#1 = [true] := by decide

@[simp] theorem bitsOf_zero : bitsOf 0#1 = [false] := by decide

/-- TENC's walk appends the header (R141). -/
theorem emitTree_eq (t : HuffTree) (wr : WritePort) : emitTree t wr = wr.writeSeq (ser t) := by
  induction t generalizing wr with
  | leaf s w => simp [emitTree, ser, WritePort.writeBits_eq, WritePort.writeSeq_writeSeq]
  | node w l r ihl ihr => simp [emitTree, ser, ihl, ihr, WritePort.writeBits_eq, WritePort.writeSeq_writeSeq]

/-! ### Reading -/

/-- One bit read from the front. -/
theorem ReadPort.readBits_one_of_rest {rd : ReadPort} {b : Bool} {x : Bits} (h : rd.rest = b :: x) :
    rd.readBits 1 = (some (BitVec.ofBool b), { rd with pos := rd.pos + 1 }) ∧
      ReadPort.rest { rd with pos := rd.pos + 1 } = x := by
  refine ReadPort.readBits_of_rest (by decide) ?_
  rw [h]; cases b <;> rfl

theorem ReadPort.readBits_one_of_nil {rd : ReadPort} (h : rd.rest = []) :
    rd.readBits 1 = (none, { rd with pos := rd.bits.length }) := ReadPort.readBits_of_short (by simp [h])

/-- What a run of the header reader has done, given the bits before it and the nodes counted before it (R150, R153):
it returns the tree whose header it consumed; or it meets the capacity limit with subtrees still wanted; or the bits run
out, whatever number of further subtrees is wanted. -/
def HeaderRead.Explains (run : HeaderRead) (count : Nat) (rd : ReadPort) : Prop :=
  run.rd.bits = rd.bits ∧
  match run.result with
  | .ok t =>
    t.unweighted = t ∧ run.count = count + t.nodes ∧ run.count ≤ nodeCap ∧
      run.rd.pos = rd.pos + (ser t).length ∧ rd.rest = ser t ++ run.rd.rest ∧
      ∀ n wanted, preorderRead (t.nodes + n) (wanted + 1) rd.rest = preorderRead n wanted run.rd.rest
  | .error e =>
    (e = .capacity ∧ run.rd.pos + run.rd.rest.length = rd.pos + rd.rest.length ∧ ∀ wanted, ∃ more,
        preorderRead (nodeCap - count) (wanted + 1) rd.rest = some (wanted + more + 1, run.rd.rest)) ∨
      (e = .truncatedHeader ∧ run.rd.pos = rd.bits.length ∧
        ∀ wanted, preorderRead (nodeCap - count) (wanted + 1) rd.rest = none)

/-- The header reader, whatever it meets. -/
theorem readTree_explains (fuel count : Nat) (rd : ReadPort) (hc : count ≤ nodeCap) (hf : nodeCap ≤ fuel + count) :
    (readTree fuel count rd).Explains count rd := by
  induction fuel generalizing count rd with
  | zero =>
    have hcap : nodeCap - count = 0 := by omega
    refine ⟨rfl, Or.inl ⟨rfl, rfl, fun wanted => ⟨0, ?_⟩⟩⟩
    simp [hcap, preorderRead, readTree]
  | succ fuel ih =>
    by_cases hcount : count = nodeCap
    · refine ⟨by simp [readTree, hcount], ?_⟩
      simp only [readTree, hcount, if_true]
      refine Or.inl ⟨trivial, trivial, fun wanted => ⟨0, ?_⟩⟩
      simp [preorderRead]
    · obtain ⟨k, hk⟩ : ∃ k, nodeCap - count = k + 1 := ⟨nodeCap - count - 1, by omega⟩
      cases hrest : rd.rest with
      | nil =>
        have hread := ReadPort.readBits_one_of_nil hrest
        simp only [HeaderRead.Explains, readTree, hcount, if_false, hread, hrest, hk]
        exact ⟨trivial, Or.inr ⟨trivial, trivial, fun wanted => rfl⟩⟩
      | cons bit x =>
        obtain ⟨hread, hx⟩ := ReadPort.readBits_one_of_rest hrest
        cases bit with
        | true =>
          have hflag : BitVec.ofBool true = 1#1 := rfl
          rcases ReadPort.readBits_spec 9 { rd with pos := rd.pos + 1 } (by decide) with ⟨v, y, hr, hread9, hy⟩ | ⟨hlt, hread9⟩
          · rw [hx] at hr
            simp only [HeaderRead.Explains, readTree, hcount, if_false, hread, hflag, if_true, hread9, hrest]
            refine ⟨trivial, rfl, rfl, by omega, by simp [ser], by simp [ser, hr, hy], fun n wanted => ?_⟩
            have hlen : ¬ x.length < 9 := by rw [hr]; simp
            have hdrop : x.drop 9 = y := by rw [hr]; simp
            rw [show HuffTree.nodes (.leaf v 0) + n = n + 1 from Nat.add_comm 1 n]
            simp only [preorderRead, hlen, if_false, hdrop, hy]
          · rw [hx] at hlt
            simp only [HeaderRead.Explains, readTree, hcount, if_false, hread, hflag, if_true, hread9, hrest, hk]
            exact ⟨trivial, Or.inr ⟨trivial, trivial, fun wanted => by simp [preorderRead, hlt]⟩⟩
        | false =>
          have hflag : ¬ BitVec.ofBool false = 1#1 := by decide
          have hstep : ∀ n wanted, preorderRead (n + 1) (wanted + 1) (false :: x) = preorderRead n (wanted + 2) x :=
            fun _ _ => rfl
          have hl := ih (count + 1) { rd with pos := rd.pos + 1 } (by omega) (by omega)
          have hkl : nodeCap - (count + 1) = k := by omega
          cases hrunl : readTree fuel (count + 1) { rd with pos := rd.pos + 1 } with
          | mk resl nl rdl =>
            rw [hrunl] at hl
            obtain ⟨hbl, hl⟩ := hl
            simp only [hx] at hl
            cases resl with
            | error e =>
              simp only [HeaderRead.Explains, readTree, hcount, if_false, hread, hflag, hrunl, hrest, hk, hstep]
              rw [hkl] at hl
              refine ⟨hbl, ?_⟩
              rcases hl with ⟨he, hpos, hcap⟩ | ⟨he, hpos, htr⟩
              · refine Or.inl ⟨he, by simp at hpos ⊢; omega, fun wanted => ?_⟩
                obtain ⟨more, hm⟩ := hcap (wanted + 1)
                exact ⟨more + 1, by rw [hm]; simp; omega⟩
              · exact Or.inr ⟨he, hpos, fun wanted => htr (wanted + 1)⟩
            | ok l =>
              obtain ⟨hul, hcl, hcapl, hposl, hrl, hprel⟩ := hl
              simp only at hcl hcapl hposl hbl hprel
              have hr := ih nl rdl hcapl (by omega)
              cases hrunr : readTree fuel nl rdl with
              | mk resr nr rdr =>
                rw [hrunr] at hr
                obtain ⟨hbr, hr⟩ := hr
                cases resr with
                | error e =>
                  simp only [HeaderRead.Explains, readTree, hcount, if_false, hread, hflag, hrunl, hrunr, hrest, hk, hstep]
                  refine ⟨hbr.trans hbl, ?_⟩
                  have hkk : k = l.nodes + (nodeCap - nl) := by omega
                  have hlen : x.length = (ser l).length + rdl.rest.length := by rw [hrl]; simp
                  rcases hr with ⟨he, hpos, hcap⟩ | ⟨he, hpos, htr⟩
                  · refine Or.inl ⟨he, by simp at hpos ⊢; omega, fun wanted => ?_⟩
                    obtain ⟨more, hm⟩ := hcap wanted
                    exact ⟨more, by rw [hkk, hprel, hm]⟩
                  · refine Or.inr ⟨he, by rw [hpos, hbl], fun wanted => ?_⟩
                    rw [hkk, hprel, htr]
                | ok r =>
                  obtain ⟨hur, hcr, hcapr, hposr, hrr, hprer⟩ := hr
                  simp only at hcr hcapr hposr hbr hprer
                  simp only [HeaderRead.Explains, readTree, hcount, if_false, hread, hflag, hrunl, hrunr, hrest]
                  refine ⟨hbr.trans hbl, by simp [HuffTree.unweighted, hul, hur], ?_, hcapr, ?_, ?_, fun n wanted => ?_⟩
                  · simp [HuffTree.nodes]; omega
                  · simp [ser]; omega
                  · rw [hrl, hrr]; simp [ser]
                  · have e : (HuffTree.node 0 l r).nodes + n = (l.nodes + (r.nodes + n)) + 1 := by
                      simp [HuffTree.nodes]; omega
                    rw [e, hstep, hprel, hprer]

end Sys2Proof.Machine
end

