-- ==== Sys2Proof/Laws/Loops.lean ====
section
/-!
SUPPORT. What the loops of FCOUNT, PENC and PDEC do (spec/40_frequency_counter.md R101, spec/44_payload_transducers.md
R161, R171), on the bits left in RD.
-/

namespace Sys2Proof.Machine

open Sys2Proof.Config

/-! ### Units -/

/-- The bits left are the units left and fewer than 8 bits more (R105). -/
theorem ReadPort.rest_eq_units (rd : ReadPort) : ∃ x : Bits, rd.rest = bitsOfBytes rd.units ++ x ∧ x.length < 8 := by
  obtain ⟨us, x, h, hx⟩ := bits_split rd.rest
  refine ⟨x, ?_, hx⟩
  rw [ReadPort.units, h, bytesOfBits_bitsOfBytes_append us hx]

theorem ReadPort.length_units (rd : ReadPort) : rd.units.length = rd.remaining / 8 := by
  rw [ReadPort.units, length_bytesOfBits, ReadPort.length_rest]

/-- Reading a unit where one is left. -/
theorem ReadPort.readBits_unit {rd : ReadPort} {u : Byte} {us : List Byte} {x : Bits}
    (h : rd.rest = bitsOfBytes (u :: us) ++ x) :
    rd.readBits 8 = (some u, { rd with pos := rd.pos + 8 }) ∧
      ReadPort.rest { rd with pos := rd.pos + 8 } = bitsOfBytes us ++ x := by
  refine ReadPort.readBits_of_rest (by decide) ?_
  rw [h, bitsOfBytes_cons, List.append_assoc]

/-! ### FCOUNT -/

/-- The loop of FCOUNT counts the units left and leaves the port at its end (R101). -/
theorem fcountLoop_eq (p : Params) (us : List Byte) {x : Bits} (hx : x.length < 8) :
    ∀ (fuel : Nat) (rd : ReadPort) (f : FreqTable), rd.rest = bitsOfBytes us ++ x → us.length < fuel →
      fcountLoop p fuel rd f = ({ rd with pos := rd.bits.length }, us.foldl (countUnit p) f) := by
  induction us with
  | nil =>
    intro fuel rd f h hfuel
    obtain ⟨m, rfl⟩ : ∃ m, fuel = m + 1 := ⟨fuel - 1, by simp at hfuel; omega⟩
    have hread := ReadPort.readBits_of_short (n := 8) (rd := rd) (by rw [h]; simpa using hx)
    simp [fcountLoop, hread]
  | cons u us ih =>
    intro fuel rd f h hfuel
    obtain ⟨m, rfl⟩ : ∃ m, fuel = m + 1 := ⟨fuel - 1, by simp at hfuel; omega⟩
    obtain ⟨hread, hrest⟩ := ReadPort.readBits_unit h
    simp only [List.length_cons] at hfuel
    simp only [fcountLoop, hread]
    rw [ih m _ _ hrest (by omega)]
    rfl

/-- One saturating increment (R102). -/
theorem countUnit_get (p : Params) (f : FreqTable) (u : Byte) (i : Fin 256) :
    (countUnit p f u)[i.val]'i.isLt =
      if i.val = u.toNat then (if f[i.val]'i.isLt < p.maxCount then f[i.val]'i.isLt + 1 else f[i.val]'i.isLt)
      else f[i.val]'i.isLt := by
  simp only [countUnit, Vector.getElem_set]
  by_cases h : i.val = u.toNat
  · simp [h]
  · simp [h, Ne.symm h]

/-- Counting a list of units saturates at the largest count (R102, R103). -/
theorem foldl_countUnit_get (p : Params) (us : List Byte) (f : FreqTable) (i : Fin 256)
    (hf : f[i.val]'i.isLt ≤ p.maxCount) :
    (us.foldl (countUnit p) f)[i.val]'i.isLt = min (f[i.val]'i.isLt + us.count (BitVec.ofNat 8 i.val)) p.maxCount := by
  induction us generalizing f with
  | nil => simp; omega
  | cons u us ih =>
    have hget := countUnit_get p f u i
    have hui : (u == BitVec.ofNat 8 i.val) = decide (i.val = u.toNat) := by
      rw [beq_eq_decide]
      congr 1
      rw [eq_iff_iff, ← BitVec.toNat_inj, BitVec.toNat_ofNat, Nat.mod_eq_of_lt i.isLt]
      exact eq_comm
    rw [List.foldl_cons, ih _ (by rw [hget]; split_ifs <;> omega), hget, List.count_cons, hui]
    by_cases h : i.val = u.toNat
    · simp only [h, if_true, decide_true]
      split <;> omega
    · simp [h]

/-- A stored entry of the table (R25). -/
theorem freqAt_of_lt (f : FreqTable) {k : Nat} (hk : k < 256) : freqAt f k = f[k] := by
  rw [freqAt, freqTable, List.getD_eq_getElem?_getD, List.getElem?_append_left (by simpa using hk)]
  simp [hk]

/-- The sentinel's entry is not stored (R26). -/
theorem freqAt_eos (f : FreqTable) : freqAt f 256 = 1 := by simp [freqAt, freqTable]

theorem freqZero_get (i : Fin 256) : freqZero[i.val]'i.isLt = 0 := by simp [freqZero]

/-- FCOUNT's table is the table of saturated counts (R103). -/
theorem foldl_countUnit_zero (p : Params) (us : List Byte) : us.foldl (countUnit p) freqZero = countsOf p us := by
  ext i hi
  have := foldl_countUnit_get p us freqZero ⟨i, hi⟩ (by rw [freqZero_get]; omega)
  simp only [freqZero_get ⟨i, hi⟩, Nat.zero_add] at this
  rw [this]
  simp only [countsOf, Vector.getElem_ofFn]

/-! ### PENC -/

/-- The codes of a list of units in a table, one after the other. -/
abbrev unitCodes (code : CodeTable) (us : List Byte) : Bits := us.flatMap fun u => (codeAt code (symbolOf u)).getD []

/-- The loop of PENC over units that have codes (R161). -/
theorem pencLoop_units (code : CodeTable) (us : List Byte) {y : Bits} :
    ∀ (fuel : Nat) (rd : ReadPort) (wr : WritePort), rd.rest = bitsOfBytes us ++ y →
      (∀ u ∈ us, (codeAt code (symbolOf u)).isSome) →
      pencLoop code (us.length + fuel) rd wr =
          pencLoop code fuel { rd with pos := rd.pos + 8 * us.length } (wr.writeSeq (unitCodes code us)) ∧
        ReadPort.rest { rd with pos := rd.pos + 8 * us.length } = y := by
  induction us with
  | nil => intro fuel rd wr h _; simpa [unitCodes] using h
  | cons u us ih =>
    intro fuel rd wr h hall
    obtain ⟨hread, hrest⟩ := ReadPort.readBits_unit h
    obtain ⟨c, hc⟩ := Option.isSome_iff_exists.mp (hall u List.mem_cons_self)
    obtain ⟨hloop, hy⟩ := ih fuel _ (wr.writeSeq c) hrest fun v hv => hall v (List.mem_cons_of_mem _ hv)
    have hfuel : (u :: us).length + fuel = (us.length + fuel) + 1 := by simp; omega
    have hc' : codeAt code (BitVec.setWidth 9 u) = some c := hc
    have hpos : rd.pos + 8 + 8 * us.length = rd.pos + 8 * (u :: us).length := by simp; omega
    simp only [hpos] at hloop hy
    refine ⟨?_, hy⟩
    rw [hfuel]
    simp only [pencLoop, hread, hc']
    rw [hloop, WritePort.writeSeq_writeSeq]
    simp [unitCodes, hc]

/-- PENC's loop at the end of the stream (R161). -/
theorem pencLoop_end (code : CodeTable) (fuel : Nat) {rd : ReadPort} (wr : WritePort) (h : rd.rest.length < 8) :
    pencLoop code (fuel + 1) rd wr =
      match codeAt code eos with
      | none => ⟨{ rd with pos := rd.bits.length }, wr, some .noCode⟩
      | some c => ⟨{ rd with pos := rd.bits.length }, wr.writeSeq c, none⟩ := by
  have hread := ReadPort.readBits_of_short (n := 8) h
  cases hc : codeAt code eos <;> simp only [pencLoop, hread, hc]

/-- PENC's loop at a unit that has no code (R164). -/
theorem pencLoop_missing (code : CodeTable) (fuel : Nat) {rd : ReadPort} (wr : WritePort) {u : Byte} {us : List Byte}
    {x : Bits} (h : rd.rest = bitsOfBytes (u :: us) ++ x) (hu : codeAt code (symbolOf u) = none) :
    pencLoop code (fuel + 1) rd wr = ⟨{ rd with pos := rd.pos + 8 }, wr, some .noCode⟩ := by
  obtain ⟨hread, -⟩ := ReadPort.readBits_unit h
  have hu' : codeAt code (BitVec.setWidth 9 u) = none := hu
  simp only [pencLoop, hread, hu']

/-! ### PDEC -/

@[simp] theorem HuffTree.child_zero (w : Nat) (l r : HuffTree) : (HuffTree.node w l r).child (BitVec.ofBool false) = l := rfl
@[simp] theorem HuffTree.child_one (w : Nat) (l r : HuffTree) : (HuffTree.node w l r).child (BitVec.ofBool true) = r := rfl

theorem readCode_length {t : HuffTree} {b b' : Bits} {s : Symbol} (h : readCode t b = some (s, b')) :
    ∃ c : Bits, b = c ++ b' ∧ (t.isLeaf = false → c ≠ []) := by
  induction t generalizing b with
  | leaf x w => simp only [readCode, Option.some.injEq, Prod.mk.injEq] at h; exact ⟨[], by simp [h.2], by simp [HuffTree.isLeaf]⟩
  | node w l r ihl ihr =>
    cases b with
    | nil => simp [readCode] at h
    | cons bit b =>
      cases bit with
      | false =>
        obtain ⟨c, hb, -⟩ := ihl (by simpa [readCode] using h)
        exact ⟨false :: c, by simp [hb], by simp⟩
      | true =>
        obtain ⟨c, hb, -⟩ := ihr (by simpa [readCode] using h)
        exact ⟨true :: c, by simp [hb], by simp⟩

/-- What PDEC does on standing at a leaf it has just reached (R171). -/
def leafOutcome (root : HuffTree) (fuel : Nat) (s : Symbol) (w : Nat) (rd : ReadPort) (wr : WritePort) : DecodeRun :=
  if s = eos then ⟨.leaf s w, rd, wr, none⟩
  else if eos < s then ⟨.leaf s w, rd, wr, some .illFormedTree⟩
  else pdecLoop root fuel root rd (wr.writeBits (s.setWidth 8))

/-- The loop of PDEC from an internal node through a whole code (R172). -/
theorem pdecLoop_code (root : HuffTree) {cur : HuffTree} {c b' : Bits} {s : Symbol} (hcur : cur.isLeaf = false) :
    ∀ {rd : ReadPort}, rd.rest = c ++ b' → readCode cur (c ++ b') = some (s, b') → ∃ w, ∀ (fuel : Nat) (wr : WritePort),
      pdecLoop root (c.length + fuel) cur rd wr =
          leafOutcome root fuel s w { rd with pos := rd.pos + c.length } wr ∧
        ReadPort.rest { rd with pos := rd.pos + c.length } = b' := by
  induction cur generalizing c with
  | leaf x w => simp [HuffTree.isLeaf] at hcur
  | node w l r ihl ihr =>
    intro rd hrest hcode
    cases c with
    | nil =>
      obtain ⟨c', hb, hne⟩ := readCode_length hcode
      have : c' = [] := by simpa using hb
      exact absurd this (hne rfl)
    | cons bit c =>
      obtain ⟨hread, hx⟩ := ReadPort.readBits_one_of_rest (b := bit) (x := c ++ b') hrest
      have hchild : ∀ child : HuffTree, (HuffTree.node w l r).child (BitVec.ofBool bit) = child →
          readCode child (c ++ b') = some (s, b') →
          (child.isLeaf = false → ∃ w', ∀ (fuel : Nat) (wr : WritePort),
            pdecLoop root (c.length + fuel) child { rd with pos := rd.pos + 1 } wr =
              leafOutcome root fuel s w' { rd with pos := rd.pos + 1 + c.length } wr ∧
            ReadPort.rest { rd with pos := rd.pos + 1 + c.length } = b') →
          ∃ w', ∀ (fuel : Nat) (wr : WritePort), pdecLoop root ((bit :: c).length + fuel) (.node w l r) rd wr =
              leafOutcome root fuel s w' { rd with pos := rd.pos + (bit :: c).length } wr ∧
            ReadPort.rest { rd with pos := rd.pos + (bit :: c).length } = b' := by
        intro child hch hcd ih
        cases child with
        | leaf x w' =>
          simp only [readCode, Option.some.injEq, Prod.mk.injEq] at hcd
          obtain ⟨rfl, hnil⟩ := hcd
          have hc : c = [] := by simpa using hnil
          subst hc
          refine ⟨w', fun fuel wr => ⟨?_, by simpa using hx⟩⟩
          rw [show ([bit] : Bits).length + fuel = fuel + 1 from Nat.add_comm _ _]
          simp only [pdecLoop, hread, hch]
          rfl
        | node w' l' r' =>
          obtain ⟨w'', h⟩ := ih rfl
          refine ⟨w'', fun fuel wr => ?_⟩
          obtain ⟨h1, h2⟩ := h fuel wr
          have hf : (bit :: c).length + fuel = (c.length + fuel) + 1 := by simp; omega
          have hp : rd.pos + 1 + c.length = rd.pos + (bit :: c).length := by simp; omega
          rw [hp] at h1 h2
          refine ⟨?_, h2⟩
          rw [hf]
          simp only [pdecLoop, hread, hch]
          exact h1
      cases bit with
      | false =>
        have hcd : readCode l (c ++ b') = some (s, b') := by simpa [readCode] using hcode
        exact hchild l rfl hcd fun hl => ihl hl hx hcd
      | true =>
        have hcd : readCode r (c ++ b') = some (s, b') := by simpa [readCode] using hcode
        exact hchild r rfl hcd fun hr => ihr hr hx hcd

/-- The loop of PDEC where the bits run out between root and leaf (R171). -/
theorem pdecLoop_exhausted (root : HuffTree) {cur : HuffTree} (hcur : cur.isLeaf = false) (fuel : Nat) {rd : ReadPort}
    (wr : WritePort) (h : readCode cur rd.rest = none) (hfuel : rd.rest.length < fuel) :
    ∃ cur', pdecLoop root fuel cur rd wr = ⟨cur', { rd with pos := rd.bits.length }, wr, some .truncatedPayload⟩ := by
  induction cur generalizing rd fuel with
  | leaf x w => simp [HuffTree.isLeaf] at hcur
  | node w l r ihl ihr =>
    obtain ⟨m, rfl⟩ : ∃ m, fuel = m + 1 := ⟨fuel - 1, by omega⟩
    cases hrest : rd.rest with
    | nil => exact ⟨.node w l r, by simp only [pdecLoop, ReadPort.readBits_one_of_nil hrest]⟩
    | cons bit x =>
      obtain ⟨hread, hx⟩ := ReadPort.readBits_one_of_rest hrest
      rw [hrest] at h hfuel
      simp only [List.length_cons] at hfuel
      cases bit with
      | false =>
        cases l with
        | leaf y v => simp [readCode] at h
        | node v l' r' =>
          obtain ⟨cur', hc⟩ := ihl rfl m (rd := { rd with pos := rd.pos + 1 })
            (by rw [hx]; simpa [readCode] using h) (by rw [hx]; omega)
          exact ⟨cur', by simp only [pdecLoop, hread, HuffTree.child_zero]; exact hc⟩
      | true =>
        cases r with
        | leaf y v => simp [readCode] at h
        | node v l' r' =>
          obtain ⟨cur', hc⟩ := ihr rfl m (rd := { rd with pos := rd.pos + 1 })
            (by rw [hx]; simpa [readCode] using h) (by rw [hx]; omega)
          exact ⟨cur', by simp only [pdecLoop, hread, HuffTree.child_one]; exact hc⟩

end Sys2Proof.Machine
end

