-- ==== Sys2Proof/Laws/State.lean ====
section
/-!
SUPPORT. One lemma per field per named update of the state, so that no proof unfolds a record update.
-/

namespace Sys2Proof.Machine

/-! ### setRd -/

@[simp] theorem State.setRd_err (s : State) (rd : ReadPort) : (s.setRd rd).err = s.err := rfl
@[simp] theorem State.setRd_errcode (s : State) (rd : ReadPort) : (s.setRd rd).errcode = s.errcode := rfl
@[simp] theorem State.setRd_treeValid (s : State) (rd : ReadPort) : (s.setRd rd).treeValid = s.treeValid := rfl
@[simp] theorem State.setRd_treeSrc (s : State) (rd : ReadPort) : (s.setRd rd).treeSrc = s.treeSrc := rfl
@[simp] theorem State.setRd_codeValid (s : State) (rd : ReadPort) : (s.setRd rd).codeValid = s.codeValid := rfl
@[simp] theorem State.setRd_freq (s : State) (rd : ReadPort) : (s.setRd rd).freq = s.freq := rfl
@[simp] theorem State.setRd_tree (s : State) (rd : ReadPort) : (s.setRd rd).tree = s.tree := rfl
@[simp] theorem State.setRd_code (s : State) (rd : ReadPort) : (s.setRd rd).code = s.code := rfl
@[simp] theorem State.setRd_cur (s : State) (rd : ReadPort) : (s.setRd rd).cur = s.cur := rfl
@[simp] theorem State.setRd_rd (s : State) (rd : ReadPort) : (s.setRd rd).rd = rd := rfl
@[simp] theorem State.setRd_wr (s : State) (rd : ReadPort) : (s.setRd rd).wr = s.wr := rfl
@[simp] theorem State.setRd_host (s : State) (rd : ReadPort) : (s.setRd rd).host = s.host := rfl

/-! ### setWr -/

@[simp] theorem State.setWr_err (s : State) (wr : WritePort) : (s.setWr wr).err = s.err := rfl
@[simp] theorem State.setWr_errcode (s : State) (wr : WritePort) : (s.setWr wr).errcode = s.errcode := rfl
@[simp] theorem State.setWr_treeValid (s : State) (wr : WritePort) : (s.setWr wr).treeValid = s.treeValid := rfl
@[simp] theorem State.setWr_treeSrc (s : State) (wr : WritePort) : (s.setWr wr).treeSrc = s.treeSrc := rfl
@[simp] theorem State.setWr_codeValid (s : State) (wr : WritePort) : (s.setWr wr).codeValid = s.codeValid := rfl
@[simp] theorem State.setWr_freq (s : State) (wr : WritePort) : (s.setWr wr).freq = s.freq := rfl
@[simp] theorem State.setWr_tree (s : State) (wr : WritePort) : (s.setWr wr).tree = s.tree := rfl
@[simp] theorem State.setWr_code (s : State) (wr : WritePort) : (s.setWr wr).code = s.code := rfl
@[simp] theorem State.setWr_cur (s : State) (wr : WritePort) : (s.setWr wr).cur = s.cur := rfl
@[simp] theorem State.setWr_rd (s : State) (wr : WritePort) : (s.setWr wr).rd = s.rd := rfl
@[simp] theorem State.setWr_wr (s : State) (wr : WritePort) : (s.setWr wr).wr = wr := rfl
@[simp] theorem State.setWr_host (s : State) (wr : WritePort) : (s.setWr wr).host = s.host := rfl

/-! ### setFreq -/

@[simp] theorem State.setFreq_err (s : State) (f : FreqTable) : (s.setFreq f).err = s.err := rfl
@[simp] theorem State.setFreq_errcode (s : State) (f : FreqTable) : (s.setFreq f).errcode = s.errcode := rfl
@[simp] theorem State.setFreq_treeValid (s : State) (f : FreqTable) : (s.setFreq f).treeValid = s.treeValid := rfl
@[simp] theorem State.setFreq_treeSrc (s : State) (f : FreqTable) : (s.setFreq f).treeSrc = s.treeSrc := rfl
@[simp] theorem State.setFreq_codeValid (s : State) (f : FreqTable) : (s.setFreq f).codeValid = s.codeValid := rfl
@[simp] theorem State.setFreq_freq (s : State) (f : FreqTable) : (s.setFreq f).freq = f := rfl
@[simp] theorem State.setFreq_tree (s : State) (f : FreqTable) : (s.setFreq f).tree = s.tree := rfl
@[simp] theorem State.setFreq_code (s : State) (f : FreqTable) : (s.setFreq f).code = s.code := rfl
@[simp] theorem State.setFreq_cur (s : State) (f : FreqTable) : (s.setFreq f).cur = s.cur := rfl
@[simp] theorem State.setFreq_rd (s : State) (f : FreqTable) : (s.setFreq f).rd = s.rd := rfl
@[simp] theorem State.setFreq_wr (s : State) (f : FreqTable) : (s.setFreq f).wr = s.wr := rfl
@[simp] theorem State.setFreq_host (s : State) (f : FreqTable) : (s.setFreq f).host = s.host := rfl

/-! ### setCur -/

@[simp] theorem State.setCur_err (s : State) (t : HuffTree) : (s.setCur t).err = s.err := rfl
@[simp] theorem State.setCur_errcode (s : State) (t : HuffTree) : (s.setCur t).errcode = s.errcode := rfl
@[simp] theorem State.setCur_treeValid (s : State) (t : HuffTree) : (s.setCur t).treeValid = s.treeValid := rfl
@[simp] theorem State.setCur_treeSrc (s : State) (t : HuffTree) : (s.setCur t).treeSrc = s.treeSrc := rfl
@[simp] theorem State.setCur_codeValid (s : State) (t : HuffTree) : (s.setCur t).codeValid = s.codeValid := rfl
@[simp] theorem State.setCur_freq (s : State) (t : HuffTree) : (s.setCur t).freq = s.freq := rfl
@[simp] theorem State.setCur_tree (s : State) (t : HuffTree) : (s.setCur t).tree = s.tree := rfl
@[simp] theorem State.setCur_code (s : State) (t : HuffTree) : (s.setCur t).code = s.code := rfl
@[simp] theorem State.setCur_cur (s : State) (t : HuffTree) : (s.setCur t).cur = t := rfl
@[simp] theorem State.setCur_rd (s : State) (t : HuffTree) : (s.setCur t).rd = s.rd := rfl
@[simp] theorem State.setCur_wr (s : State) (t : HuffTree) : (s.setCur t).wr = s.wr := rfl
@[simp] theorem State.setCur_host (s : State) (t : HuffTree) : (s.setCur t).host = s.host := rfl

/-! ### setTree -/

@[simp] theorem State.setTree_err (s : State) (src : TreeSrc) (t : HuffTree) : (s.setTree src t).err = s.err := rfl
@[simp] theorem State.setTree_errcode (s : State) (src : TreeSrc) (t : HuffTree) : (s.setTree src t).errcode = s.errcode := rfl
@[simp] theorem State.setTree_treeValid (s : State) (src : TreeSrc) (t : HuffTree) : (s.setTree src t).treeValid = true := rfl
@[simp] theorem State.setTree_treeSrc (s : State) (src : TreeSrc) (t : HuffTree) : (s.setTree src t).treeSrc = src := rfl
@[simp] theorem State.setTree_codeValid (s : State) (src : TreeSrc) (t : HuffTree) : (s.setTree src t).codeValid = false := rfl
@[simp] theorem State.setTree_freq (s : State) (src : TreeSrc) (t : HuffTree) : (s.setTree src t).freq = s.freq := rfl
@[simp] theorem State.setTree_tree (s : State) (src : TreeSrc) (t : HuffTree) : (s.setTree src t).tree = t := rfl
@[simp] theorem State.setTree_code (s : State) (src : TreeSrc) (t : HuffTree) : (s.setTree src t).code = s.code := rfl
@[simp] theorem State.setTree_cur (s : State) (src : TreeSrc) (t : HuffTree) : (s.setTree src t).cur = s.cur := rfl
@[simp] theorem State.setTree_rd (s : State) (src : TreeSrc) (t : HuffTree) : (s.setTree src t).rd = s.rd := rfl
@[simp] theorem State.setTree_wr (s : State) (src : TreeSrc) (t : HuffTree) : (s.setTree src t).wr = s.wr := rfl
@[simp] theorem State.setTree_host (s : State) (src : TreeSrc) (t : HuffTree) : (s.setTree src t).host = s.host := rfl

/-! ### setCode -/

@[simp] theorem State.setCode_err (s : State) (table : CodeTable) : (s.setCode table).err = s.err := rfl
@[simp] theorem State.setCode_errcode (s : State) (table : CodeTable) : (s.setCode table).errcode = s.errcode := rfl
@[simp] theorem State.setCode_treeValid (s : State) (table : CodeTable) : (s.setCode table).treeValid = s.treeValid := rfl
@[simp] theorem State.setCode_treeSrc (s : State) (table : CodeTable) : (s.setCode table).treeSrc = s.treeSrc := rfl
@[simp] theorem State.setCode_codeValid (s : State) (table : CodeTable) : (s.setCode table).codeValid = true := rfl
@[simp] theorem State.setCode_freq (s : State) (table : CodeTable) : (s.setCode table).freq = s.freq := rfl
@[simp] theorem State.setCode_tree (s : State) (table : CodeTable) : (s.setCode table).tree = s.tree := rfl
@[simp] theorem State.setCode_code (s : State) (table : CodeTable) : (s.setCode table).code = table := rfl
@[simp] theorem State.setCode_cur (s : State) (table : CodeTable) : (s.setCode table).cur = s.cur := rfl
@[simp] theorem State.setCode_rd (s : State) (table : CodeTable) : (s.setCode table).rd = s.rd := rfl
@[simp] theorem State.setCode_wr (s : State) (table : CodeTable) : (s.setCode table).wr = s.wr := rfl
@[simp] theorem State.setCode_host (s : State) (table : CodeTable) : (s.setCode table).host = s.host := rfl

/-! ### setHost -/

@[simp] theorem State.setHost_err (s : State) (h : HostSide) : (s.setHost h).err = s.err := rfl
@[simp] theorem State.setHost_errcode (s : State) (h : HostSide) : (s.setHost h).errcode = s.errcode := rfl
@[simp] theorem State.setHost_treeValid (s : State) (h : HostSide) : (s.setHost h).treeValid = s.treeValid := rfl
@[simp] theorem State.setHost_treeSrc (s : State) (h : HostSide) : (s.setHost h).treeSrc = s.treeSrc := rfl
@[simp] theorem State.setHost_codeValid (s : State) (h : HostSide) : (s.setHost h).codeValid = s.codeValid := rfl
@[simp] theorem State.setHost_freq (s : State) (h : HostSide) : (s.setHost h).freq = s.freq := rfl
@[simp] theorem State.setHost_tree (s : State) (h : HostSide) : (s.setHost h).tree = s.tree := rfl
@[simp] theorem State.setHost_code (s : State) (h : HostSide) : (s.setHost h).code = s.code := rfl
@[simp] theorem State.setHost_cur (s : State) (h : HostSide) : (s.setHost h).cur = s.cur := rfl
@[simp] theorem State.setHost_rd (s : State) (h : HostSide) : (s.setHost h).rd = s.rd := rfl
@[simp] theorem State.setHost_wr (s : State) (h : HostSide) : (s.setHost h).wr = s.wr := rfl
@[simp] theorem State.setHost_host (s : State) (h : HostSide) : (s.setHost h).host = h := rfl

/-! ### cleared -/

@[simp] theorem State.cleared_err (s : State) : (s.cleared).err = false := rfl
@[simp] theorem State.cleared_errcode (s : State) : (s.cleared).errcode = 0#4 := rfl
@[simp] theorem State.cleared_treeValid (s : State) : (s.cleared).treeValid = false := rfl
@[simp] theorem State.cleared_treeSrc (s : State) : (s.cleared).treeSrc = .tbuild := rfl
@[simp] theorem State.cleared_codeValid (s : State) : (s.cleared).codeValid = false := rfl
@[simp] theorem State.cleared_freq (s : State) : (s.cleared).freq = freqZero := rfl
@[simp] theorem State.cleared_tree (s : State) : (s.cleared).tree = s.tree := rfl
@[simp] theorem State.cleared_code (s : State) : (s.cleared).code = codeAbsent := rfl
@[simp] theorem State.cleared_cur (s : State) : (s.cleared).cur = s.cur := rfl
@[simp] theorem State.cleared_rd (s : State) : (s.cleared).rd = s.rd := rfl
@[simp] theorem State.cleared_wr (s : State) : (s.cleared).wr = s.wr := rfl
@[simp] theorem State.cleared_host (s : State) : (s.cleared).host = s.host := rfl

/-! ### advance -/

@[simp] theorem State.advance_err (s : State) : (s.advance).err = s.err := rfl
@[simp] theorem State.advance_errcode (s : State) : (s.advance).errcode = s.errcode := rfl
@[simp] theorem State.advance_treeValid (s : State) : (s.advance).treeValid = s.treeValid := rfl
@[simp] theorem State.advance_treeSrc (s : State) : (s.advance).treeSrc = s.treeSrc := rfl
@[simp] theorem State.advance_codeValid (s : State) : (s.advance).codeValid = s.codeValid := rfl
@[simp] theorem State.advance_freq (s : State) : (s.advance).freq = s.freq := rfl
@[simp] theorem State.advance_tree (s : State) : (s.advance).tree = s.tree := rfl
@[simp] theorem State.advance_code (s : State) : (s.advance).code = s.code := rfl
@[simp] theorem State.advance_cur (s : State) : (s.advance).cur = s.cur := rfl
@[simp] theorem State.advance_rd (s : State) : (s.advance).rd = s.rd := rfl
@[simp] theorem State.advance_wr (s : State) : (s.advance).wr = s.wr := rfl
@[simp] theorem State.advance_host (s : State) : (s.advance).host = { s.host with script := s.host.script.tail } := rfl

/-! ### raise -/

@[simp] theorem State.raise_err (s : State) (who : Raiser) (e : Error) : (s.raise who e).err = true := rfl
@[simp] theorem State.raise_errcode (s : State) (who : Raiser) (e : Error) : (s.raise who e).errcode = e.code := rfl
@[simp] theorem State.raise_treeSrc (s : State) (who : Raiser) (e : Error) : (s.raise who e).treeSrc = s.treeSrc := rfl
@[simp] theorem State.raise_freq (s : State) (who : Raiser) (e : Error) : (s.raise who e).freq = s.freq := rfl
@[simp] theorem State.raise_tree (s : State) (who : Raiser) (e : Error) : (s.raise who e).tree = s.tree := rfl
@[simp] theorem State.raise_code (s : State) (who : Raiser) (e : Error) : (s.raise who e).code = s.code := rfl
@[simp] theorem State.raise_cur (s : State) (who : Raiser) (e : Error) : (s.raise who e).cur = s.cur := rfl
@[simp] theorem State.raise_rd (s : State) (who : Raiser) (e : Error) : (s.raise who e).rd = s.rd := rfl
@[simp] theorem State.raise_wr (s : State) (who : Raiser) (e : Error) : (s.raise who e).wr = s.wr := rfl
@[simp] theorem State.raise_host (s : State) (who : Raiser) (e : Error) : (s.raise who e).host = s.host := rfl

@[simp] theorem State.raise_tdec_treeValid (s : State) (e : Error) : (s.raise .tdec e).treeValid = false := rfl
@[simp] theorem State.raise_ctgen_treeValid (s : State) (e : Error) : (s.raise .ctgen e).treeValid = s.treeValid := rfl
@[simp] theorem State.raise_other_treeValid (s : State) (e : Error) : (s.raise .other e).treeValid = s.treeValid := rfl
@[simp] theorem State.raise_tdec_codeValid (s : State) (e : Error) : (s.raise .tdec e).codeValid = false := rfl
@[simp] theorem State.raise_ctgen_codeValid (s : State) (e : Error) : (s.raise .ctgen e).codeValid = false := rfl
@[simp] theorem State.raise_other_codeValid (s : State) (e : Error) : (s.raise .other e).codeValid = s.codeValid := rfl

/-! ### endWith -/

@[simp] theorem State.endWith_none (s : State) (who : Raiser) : s.endWith who none = s := rfl
@[simp] theorem State.endWith_some (s : State) (who : Raiser) (e : Error) : s.endWith who (some e) = s.raise who e := rfl

@[simp] theorem State.endWith_treeSrc (s : State) (who : Raiser) (e : Option Error) : (s.endWith who e).treeSrc = s.treeSrc := by cases e <;> rfl
@[simp] theorem State.endWith_freq (s : State) (who : Raiser) (e : Option Error) : (s.endWith who e).freq = s.freq := by cases e <;> rfl
@[simp] theorem State.endWith_tree (s : State) (who : Raiser) (e : Option Error) : (s.endWith who e).tree = s.tree := by cases e <;> rfl
@[simp] theorem State.endWith_code (s : State) (who : Raiser) (e : Option Error) : (s.endWith who e).code = s.code := by cases e <;> rfl
@[simp] theorem State.endWith_cur (s : State) (who : Raiser) (e : Option Error) : (s.endWith who e).cur = s.cur := by cases e <;> rfl
@[simp] theorem State.endWith_rd (s : State) (who : Raiser) (e : Option Error) : (s.endWith who e).rd = s.rd := by cases e <;> rfl
@[simp] theorem State.endWith_wr (s : State) (who : Raiser) (e : Option Error) : (s.endWith who e).wr = s.wr := by cases e <;> rfl
@[simp] theorem State.endWith_host (s : State) (who : Raiser) (e : Option Error) : (s.endWith who e).host = s.host := by cases e <;> rfl
@[simp] theorem State.endWith_other_treeValid (s : State) (e : Option Error) : (s.endWith .other e).treeValid = s.treeValid := by cases e <;> rfl
@[simp] theorem State.endWith_other_codeValid (s : State) (e : Option Error) : (s.endWith .other e).codeValid = s.codeValid := by cases e <;> rfl

/-! ### gate -/

theorem State.gate_of_err {s : State} (h : s.err = true) (body : State → State) : s.gate body = s := by simp [State.gate, h]

theorem State.gate_of_ok {s : State} (h : s.err = false) (body : State → State) : s.gate body = body s := by simp [State.gate, h]

end Sys2Proof.Machine
end

