-- ==== Sys2Proof/Laws/Ops.lean ====
section
/-!
SUPPORT. What a step can come to, and what each command's meaning is with the gate open or shut (spec/60_exceptions.md
R217, R219).
-/

namespace Sys2Proof.Machine

open Sys2Proof.Config

/-- A command always answers a next state: errors are taken, not stopped at (R216). -/
theorem exec_answers (i : Instr) (s : State) : ∃ t, exec i s = .next t := by cases i <;> exact ⟨_, rfl⟩

/-- Everything a step can do: wait, run a command, handle a word that is no command, or do an access (R41, R46, R219). -/
theorem step_cases {s t : State} (h : step s = .next t) :
    (s.host.script = [] ∧ t = s) ∨
    (∃ w rest i, s.host.script = .cmd w :: rest ∧ decode w = .ok i ∧ exec i s.advance = .next t) ∨
    (∃ w rest e, s.host.script = .cmd w :: rest ∧ decode w = .error e ∧
      t = s.advance.gate fun s => s.raise .other .illegalCommand) ∨
    (∃ a rest, s.host.script = .access a :: rest ∧ t = s.advance.hostAccess params a) := by
  unfold step State.fetch at h
  cases hs : s.host.script with
  | nil =>
    simp only [hs, Host.Outcome.next.injEq] at h
    exact Or.inl ⟨rfl, h.symm⟩
  | cons a rest =>
    cases a with
    | cmd w =>
      simp only [hs, State.writeCmd] at h
      cases hd : decode w with
      | ok i => rw [hd] at h; exact Or.inr (Or.inl ⟨w, rest, i, rfl, hd, h⟩)
      | error e =>
        rw [hd] at h
        simp only [Host.Outcome.next.injEq] at h
        exact Or.inr (Or.inr (Or.inl ⟨w, rest, e, rfl, hd, h.symm⟩))
    | access a =>
      simp only [hs, Host.Outcome.next.injEq] at h
      exact Or.inr (Or.inr (Or.inr ⟨a, rest, rfl, h.symm⟩))

theorem State.advance_eq {s : State} {a : HostAction} {rest : List HostAction} (h : s.host.script = a :: rest) :
    s.advance = { s with host := { s.host with script := rest } } := by simp [State.advance, State.setHost, h]

/-- A step that takes a word off the script. -/
theorem step_cmd {s : State} {w : Byte} {rest : List HostAction} (h : s.host.script = .cmd w :: rest) :
    step s = match s.advance.writeCmd w with
      | .waiting => .next s
      | .done s' => .next s'
      | .issue i s' => exec i s' := by
  have hf : s.fetch params = s.advance.writeCmd w := by simp only [State.fetch, h]
  cases hw : s.advance.writeCmd w <;> simp only [step, hf, hw]

/-- A step that takes an access off the script. -/
theorem step_access {s : State} {a : HostAccess} {rest : List HostAction} (h : s.host.script = .access a :: rest) :
    step s = .next (s.advance.hostAccess params a) := by simp only [step, State.fetch, h]

/-- Raising an error from a state without one, written out (R216). -/
theorem State.raise_other (s : State) (e : Error) : s.raise .other e = { s with err := true, errcode := e.code } := rfl
theorem State.raise_ctgen (s : State) (e : Error) :
    s.raise .ctgen e = { s with err := true, errcode := e.code, codeValid := false } := rfl
theorem State.raise_tdec (s : State) (e : Error) :
    s.raise .tdec e = { s with err := true, errcode := e.code, treeValid := false, codeValid := false } := rfl

end Sys2Proof.Machine
end

