-- ==== Sys2Proof/Laws/Trees.lean ====
section
/-!
SUPPORT. Tree predicates, one merge of TBUILD, and the walk of CTGEN (spec/10_state.md R30, spec/41_tree_builder.md R111,
R112, spec/42_code_table_generator.md R131).
-/

namespace Sys2Proof.Machine

open Sys2Proof.Config

/-! ### Well-formed trees -/

theorem distinctSymbols_iff (l : List Symbol) : distinctSymbols l = true ↔ l.Nodup := by
  induction l with
  | nil => simp [distinctSymbols]
  | cons s l ih => simp [distinctSymbols, ih]

/-- `WellFormed(t)` (R30). -/
theorem HuffTree.wellFormed_iff (t : HuffTree) :
    t.wellFormed = true ↔ (∀ s ∈ t.leaves, s ≤ eos) ∧ t.leaves.Nodup := by
  simp [HuffTree.wellFormed, distinctSymbols_iff]

/-- `Complete(t)` (R30). -/
theorem HuffTree.complete_iff (t : HuffTree) : t.complete = true ↔ t.wellFormed = true ∧ eos ∈ t.leaves := by
  simp [HuffTree.complete]

/-! ### Paths -/

theorem path_eq_none_iff (t : HuffTree) (s : Symbol) : path t s = none ↔ s ∉ t.leaves := by
  induction t with
  | leaf x w => simp [path, HuffTree.leaves, eq_comm]
  | node w l r ihl ihr =>
    simp only [path, HuffTree.leaves, List.mem_append, not_or, ← ihl, ← ihr]
    cases hl : path l s <;> simp

/-- Walking the path of a symbol arrives at its leaf (R87, R176). -/
theorem readCode_path {t : HuffTree} {s : Symbol} {c : Bits} (h : path t s = some c) (b : Bits) :
    readCode t (c ++ b) = some (s, b) := by
  induction t generalizing c with
  | leaf x w =>
    simp only [path] at h
    split at h
    · simp only [Option.some.injEq] at h; subst h; simp [readCode, *]
    · simp at h
  | node w l r ihl ihr =>
    simp only [path] at h
    cases hl : path l s with
    | some p =>
      rw [hl] at h
      simp only [Option.some.injEq] at h
      subst h
      simpa [readCode] using ihl hl
    | none =>
      rw [hl] at h
      simp only [Option.map_eq_some_iff] at h
      obtain ⟨p, hp, rfl⟩ := h
      simpa [readCode] using ihr hp

/-! ### CTGEN -/

theorem codeSet_get (code : CodeTable) (s : Symbol) (p : Bits) (i : Fin 257) :
    (codeSet code s p)[i.val]'i.isLt = if s = BitVec.ofNat 9 i.val then some p else code[i.val]'i.isLt := by
  have hi : i.val < 2 ^ 9 := by have := i.isLt; omega
  have key : s = BitVec.ofNat 9 i.val ↔ s.toNat = i.val := by
    rw [← BitVec.toNat_inj, BitVec.toNat_ofNat, Nat.mod_eq_of_lt hi]
  unfold codeSet
  by_cases h : s.toNat < 257
  · simp only [h, dif_pos, Vector.getElem_set, key]
  · have : ¬ s.toNat = i.val := by have := i.isLt; omega
    simp [h, key, this]

/-- The walk of CTGEN on a tree without repeated symbols: each symbol that has a leaf gets its path, the other entries
are left (R131, R132). -/
theorem codeWalk_get (t : HuffTree) (ht : t.leaves.Nodup) (p : Bits) (code : CodeTable) (i : Fin 257) :
    (codeWalk t p code)[i.val]'i.isLt =
      match path t (BitVec.ofNat 9 i.val) with
      | some q => some (p ++ q)
      | none => code[i.val]'i.isLt := by
  induction t generalizing p code with
  | leaf s w =>
    simp only [codeWalk, codeSet_get, path]
    by_cases h : s = BitVec.ofNat 9 i.val <;> simp [h]
  | node w l r ihl ihr =>
    simp only [HuffTree.leaves, List.nodup_append] at ht
    obtain ⟨hl, hr, hdisj⟩ := ht
    simp only [codeWalk, ihr hr, ihl hl, path]
    cases hpl : path l (BitVec.ofNat 9 i.val) with
    | none => cases hpr : path r (BitVec.ofNat 9 i.val) <;> simp
    | some q =>
      have hml : BitVec.ofNat 9 i.val ∈ l.leaves := by
        by_contra hn; rw [(path_eq_none_iff _ _).mpr hn] at hpl; simp at hpl
      have hmr : BitVec.ofNat 9 i.val ∉ r.leaves := fun hm => hdisj _ hml _ hm rfl
      simp [(path_eq_none_iff r _).mpr hmr]

theorem codeAbsent_get (i : Fin 257) : codeAbsent[i.val]'i.isLt = none := by simp [codeAbsent]

/-- CTGEN's table is the code table of the tree (R132). -/
theorem codeWalk_isCodeTableOf {t : HuffTree} (ht : t.leaves.Nodup) : isCodeTableOf (codeWalk t [] codeAbsent) t := by
  intro i
  rw [codeWalk_get t ht, codeAbsent_get]
  cases path t (BitVec.ofNat 9 i.val) <;> rfl

/-- What PENC finds in the code table of a tree (R163). -/
theorem codeAt_of_isCodeTableOf {code : CodeTable} {t : HuffTree} (h : isCodeTableOf code t) {s : Symbol} (hs : s ≤ eos) :
    codeAt code s = path t s := by
  have hlt : s.toNat < 257 := by have := BitVec.le_def.mp hs; simp at this; omega
  have := h ⟨s.toNat, hlt⟩
  simp only [BitVec.ofNat_toNat, BitVec.setWidth_eq] at this
  simp only [codeAt, hlt, dif_pos, this]

theorem symbolOf_lt (u : Byte) : symbolOf u < eos := by
  rw [BitVec.lt_def]
  have := u.isLt
  simp [symbolOf, BitVec.toNat_setWidth, eos]
  omega

/-! ### TBUILD -/

theorem lowestWeight_le {q : List HuffTree} {x : HuffTree} (hx : x ∈ q) : lowestWeight q ≤ x.weight := by
  induction q with
  | nil => simp at hx
  | cons t q ih =>
    cases q with
    | nil => simp at hx; simp [lowestWeight, hx]
    | cons u q =>
      simp only [lowestWeight]
      rcases List.mem_cons.mp hx with rfl | h
      · exact Nat.min_le_left _ _
      · exact (Nat.min_le_right _ _).trans (ih h)

theorem exists_lowestWeight {q : List HuffTree} (hq : q ≠ []) : ∃ x ∈ q, x.weight = lowestWeight q := by
  induction q with
  | nil => simp at hq
  | cons t q ih =>
    cases q with
    | nil => exact ⟨t, by simp, rfl⟩
    | cons u q =>
      obtain ⟨x, hx, hw⟩ := ih (by simp)
      simp only [lowestWeight]
      rcases Nat.le_total t.weight (lowestWeight (u :: q)) with h | h
      · exact ⟨t, by simp, (Nat.min_eq_left h).symm⟩
      · exact ⟨x, List.mem_cons_of_mem _ hx, by rw [Nat.min_eq_right h, hw]⟩

theorem mem_lowestPositions {q : List HuffTree} {i : Nat} :
    i ∈ lowestPositions q ↔ ∃ t, q[i]? = some t ∧ t.weight = lowestWeight q := by
  simp only [lowestPositions, List.mem_filterMap, Prod.exists, List.mk_mem_zipIdx_iff_getElem?]
  constructor
  · rintro ⟨t, j, hj, h⟩
    split at h
    · simp only [Option.some.injEq] at h; subst h; exact ⟨t, hj, by assumption⟩
    · simp at h
  · rintro ⟨t, ht, hw⟩
    exact ⟨t, i, ht, by simp [hw]⟩

/-- A picked position holds a node of lowest weight (R111). -/
theorem pickPosition_spec (pick : Nat) {q : List HuffTree} (hq : q ≠ []) :
    ∃ a, q[pickPosition pick q]? = some a ∧ ∀ x ∈ q, a.weight ≤ x.weight := by
  obtain ⟨x, hx, hw⟩ := exists_lowestWeight hq
  obtain ⟨i, hi⟩ := List.mem_iff_getElem?.mp hx
  have hpos : 0 < (lowestPositions q).length :=
    List.length_pos_of_mem (mem_lowestPositions.mpr ⟨x, hi, hw⟩)
  have hlt : pick % (lowestPositions q).length < (lowestPositions q).length := Nat.mod_lt _ hpos
  have hmem : pickPosition pick q ∈ lowestPositions q := by
    rw [pickPosition, List.getD_eq_getElem?_getD, List.getElem?_eq_getElem hlt]
    exact List.getElem_mem hlt
  obtain ⟨a, ha, hwa⟩ := mem_lowestPositions.mp hmem
  exact ⟨a, ha, fun y hy => hwa ▸ lowestWeight_le hy⟩

/-- One round of TBUILD is a merge of the relation Huff (R111, R112). -/
theorem mergeOnce_merges (choice : TieChoice) {q : List HuffTree} (hq : 2 ≤ q.length) : Merges q (mergeOnce choice q) := by
  obtain ⟨a, ha, hla⟩ := pickPosition_spec choice.first (q := q) (by rintro rfl; simp at hq)
  have hi : pickPosition choice.first q < q.length := (List.getElem?_eq_some_iff.mp ha).1
  obtain ⟨b, hb, hlb⟩ := pickPosition_spec choice.second (q := q.eraseIdx (pickPosition choice.first q))
    (by
      intro h0
      have := congrArg List.length h0
      rw [List.length_eraseIdx_of_lt hi] at this
      simp at this
      omega)
  refine ⟨_, _, a, b, ha, hla, hb, hlb, ?_⟩
  simp only [mergeOnce, ha, hb, combine]
  cases choice.swap <;> simp

theorem Merges.length {q q' : List HuffTree} (h : Merges q q') : q'.length + 1 = q.length := by
  obtain ⟨i, j, a, b, ha, -, hb, -, h⟩ := h
  have hi : i < q.length := (List.getElem?_eq_some_iff.mp ha).1
  have hj : j < (q.eraseIdx i).length := (List.getElem?_eq_some_iff.mp hb).1
  have h1 := List.length_eraseIdx_of_lt hi
  have h2 := List.length_eraseIdx_of_lt hj
  rcases h with rfl | rfl <;> simp <;> omega

end Sys2Proof.Machine
end

