-- ==== Sys2Proof/Laws/Commands.lean ====
section
/-!
SUPPORT. One lemma per command body: everything it can come to, as one named update of the state after another. What a
proof over all commands needs (the frames, the error table, the invariant) is read off these, with no loop unfolded.
-/

namespace Sys2Proof.Machine

open Sys2Proof.Config

/-- A later position on the same stream, still within it if the earlier one was (R51). -/
def ReadPort.Moves (rd rd' : ReadPort) : Prop := rd'.bits = rd.bits ∧ (rd.wf → rd'.wf)

theorem ReadPort.Moves.rfl {rd : ReadPort} : rd.Moves rd := ⟨Eq.refl _, id⟩

theorem ReadPort.Moves.trans {a b c : ReadPort} (h : a.Moves b) (h' : b.Moves c) : a.Moves c :=
  ⟨h'.1.trans h.1, h'.2 ∘ h.2⟩

theorem ReadPort.readBits_moves {n : Nat} {rd rd' : ReadPort} {v : Option (BitVec n)} (h : rd.readBits n = (v, rd')) :
    rd.Moves rd' := by
  have hb := rd.readBits_bits n
  have hw := ReadPort.readBits_wf (n := n) (rd := rd)
  rw [h] at hb hw
  exact ⟨hb, hw⟩

/-! ### FCOUNT -/

theorem countUnit_le (p : Params) {f : FreqTable} (hf : countsFit p f) (u : Byte) : countsFit p (countUnit p f u) := by
  intro i
  have h1 := hf i
  rw [countUnit_get]
  split
  · split
    · rename_i h2; simp only [Params.maxCount] at h2; omega
    · exact h1
  · exact h1

theorem countsFit_zero (p : Params) : countsFit p freqZero := fun i => by rw [freqZero_get]; exact Nat.two_pow_pos _

theorem fcountLoop_cases (p : Params) : ∀ (fuel : Nat) (rd : ReadPort) (f : FreqTable), countsFit p f →
    rd.Moves (fcountLoop p fuel rd f).1 ∧ countsFit p (fcountLoop p fuel rd f).2 := by
  intro fuel
  induction fuel with
  | zero => intro rd f hf; exact ⟨.rfl, hf⟩
  | succ fuel ih =>
    intro rd f hf
    unfold fcountLoop
    split
    · rename_i h; exact ⟨ReadPort.readBits_moves h, hf⟩
    · rename_i u rd' h
      obtain ⟨h1, h2⟩ := ih rd' _ (countUnit_le p hf u)
      exact ⟨(ReadPort.readBits_moves h).trans h1, h2⟩

/-- Everything FCOUNT can do (R101). -/
theorem fcount_cases (p : Params) (s : State) :
    ∃ f rd, fcount p s = (s.setFreq f).setRd rd ∧ countsFit p f ∧ s.rd.Moves rd := by
  obtain ⟨h1, h2⟩ := fcountLoop_cases p (s.rd.remaining + 1) s.rd freqZero (countsFit_zero p)
  exact ⟨_, _, rfl, h2, h1⟩

/-! ### CTGEN, TENC and TDEC -/

/-- Everything CTGEN can do (R131). -/
theorem ctgen_cases (s : State) :
    (s.treeValid = true ∧ s.tree.wellFormed = true ∧
      ∃ table, ctgen s = s.setCode table ∧ isCodeTableOf table s.tree) ∨
    ∃ e, ctgen s = s.raise .ctgen e ∧ (e = .sequence ∨ e = .illFormedTree) := by
  unfold ctgen
  cases hv : s.treeValid with
  | false => exact Or.inr ⟨.sequence, rfl, Or.inl rfl⟩
  | true =>
    cases hw : s.tree.wellFormed with
    | false => exact Or.inr ⟨.illFormedTree, rfl, Or.inr rfl⟩
    | true => exact Or.inl ⟨rfl, rfl, _, rfl, codeWalk_isCodeTableOf (s.tree.wellFormed_iff.mp hw).2⟩

/-- Everything TENC can do (R141). -/
theorem tenc_cases (s : State) :
    (s.wr.closed = false ∧ tenc s = s.setWr (s.wr.writeSeq (ser s.tree))) ∨ tenc s = s.raise .other .sequence := by
  unfold tenc
  cases s.treeValid with
  | false => exact Or.inr rfl
  | true =>
    cases hw : s.wr.closed with
    | true => exact Or.inr rfl
    | false => exact Or.inl ⟨rfl, by rw [← emitTree_eq]; rfl⟩

/-- Everything TDEC can do (R150). -/
theorem tdec_cases (s : State) :
    (∃ t rd, tdec s = (s.setRd rd).setTree .tdec t ∧ t.unweighted = t ∧ t.nodes ≤ nodeCap ∧ s.rd.Moves rd) ∨
    ∃ e rd, tdec s = (s.setRd rd).raise .tdec e ∧ (e = .truncatedHeader ∨ e = .capacity) ∧ s.rd.Moves rd := by
  have h := readTree_explains nodeCap 0 s.rd (Nat.zero_le _) (Nat.le_refl _)
  have hlen := s.rd.length_rest
  unfold tdec
  cases hrun : readTree nodeCap 0 s.rd with
  | mk result count rd =>
    rw [hrun] at h
    obtain ⟨hb, h⟩ := h
    simp only [ReadPort.remaining] at hlen
    cases result with
    | ok t =>
      obtain ⟨hu, hc, hcap, hpos, hrest, -⟩ := h
      simp only at hc hcap hpos hb hrest
      refine Or.inl ⟨t, rd, rfl, hu, by omega, hb, fun hwf => ⟨?_, by rw [hb]; exact hwf.2⟩⟩
      have := congrArg List.length hrest
      simp only [List.length_append] at this
      have := hwf.1
      rw [hb]; omega
    | error e =>
      rcases h with ⟨he, hpos, -⟩ | ⟨he, hpos, -⟩
      · refine Or.inr ⟨e, rd, rfl, Or.inr he, hb, fun hwf => ⟨?_, by rw [hb]; exact hwf.2⟩⟩
        have := hwf.1
        simp only at hpos hb
        rw [hb]; omega
      · exact Or.inr ⟨e, rd, rfl, Or.inl he, hb, fun hwf => ⟨by simp only at hpos hb; rw [hpos, hb], by rw [hb]; exact hwf.2⟩⟩

/-! ### PENC and PDEC -/

theorem pencLoop_cases (code : CodeTable) : ∀ (fuel : Nat) (rd : ReadPort) (wr : WritePort),
    rd.Moves (pencLoop code fuel rd wr).rd ∧ (∃ more, (pencLoop code fuel rd wr).wr = wr.writeSeq more) ∧
      ∀ e, (pencLoop code fuel rd wr).err = some e → e = .noCode := by
  intro fuel
  induction fuel with
  | zero => intro rd wr; exact ⟨.rfl, ⟨[], by simp [pencLoop]⟩, by simp [pencLoop]⟩
  | succ fuel ih =>
    intro rd wr
    unfold pencLoop
    split
    · rename_i rd' h
      have hm := ReadPort.readBits_moves h
      split
      · exact ⟨hm, ⟨[], by simp⟩, by simp [eq_comm]⟩
      · exact ⟨hm, ⟨_, rfl⟩, by simp⟩
    · rename_i u rd' h
      have hm := ReadPort.readBits_moves h
      split
      · exact ⟨hm, ⟨[], by simp⟩, by simp [eq_comm]⟩
      · rename_i c hc
        obtain ⟨h1, ⟨more, h2⟩, h3⟩ := ih rd' (wr.writeSeq c)
        exact ⟨hm.trans h1, ⟨c ++ more, by rw [h2, WritePort.writeSeq_writeSeq]⟩, h3⟩

/-- Everything PENC can do (R161). -/
theorem penc_cases (s : State) :
    (∃ rd more e, penc s = ((s.setRd rd).setWr (s.wr.writeSeq more)).endWith .other e ∧ (e = none ∨ e = some .noCode) ∧
      s.rd.Moves rd ∧ s.wr.closed = false) ∨ penc s = s.raise .other .sequence := by
  unfold penc
  cases s.codeValid with
  | false => exact Or.inr rfl
  | true =>
    cases hw : s.wr.closed with
    | true => exact Or.inr rfl
    | false =>
      obtain ⟨h1, ⟨more, h2⟩, h3⟩ := pencLoop_cases s.code (s.rd.remaining + 1) s.rd s.wr
      refine Or.inl ⟨_, more, _, by rw [← h2]; rfl, ?_, h1, rfl⟩
      cases he : (pencLoop s.code (s.rd.remaining + 1) s.rd s.wr).err with
      | none => exact Or.inl rfl
      | some e => exact Or.inr (by rw [h3 e he])

theorem pdecLoop_cases (root : HuffTree) : ∀ (fuel : Nat) (cur : HuffTree) (rd : ReadPort) (wr : WritePort),
    rd.Moves (pdecLoop root fuel cur rd wr).rd ∧ (∃ more, (pdecLoop root fuel cur rd wr).wr = wr.writeSeq more) ∧
      ∀ e, (pdecLoop root fuel cur rd wr).err = some e → e = .truncatedPayload ∨ e = .illFormedTree := by
  intro fuel
  induction fuel with
  | zero => intro cur rd wr; exact ⟨.rfl, ⟨[], by simp [pdecLoop]⟩, by simp [pdecLoop]⟩
  | succ fuel ih =>
    intro cur rd wr
    unfold pdecLoop
    split
    · rename_i rd' h
      exact ⟨ReadPort.readBits_moves h, ⟨[], by simp⟩, fun e he => Or.inl (Option.some.inj he).symm⟩
    · rename_i b rd' h
      have hm := ReadPort.readBits_moves h
      split
      · rename_i w l r _
        obtain ⟨h1, h2, h3⟩ := ih (.node w l r) rd' wr
        exact ⟨hm.trans h1, h2, h3⟩
      · rename_i x w _
        split
        · exact ⟨hm, ⟨[], by simp⟩, by simp⟩
        · split
          · exact ⟨hm, ⟨[], by simp⟩, fun e he => Or.inr (Option.some.inj he).symm⟩
          · obtain ⟨h1, ⟨more, h2⟩, h3⟩ := ih root rd' (wr.writeBits (x.setWidth 8))
            exact ⟨hm.trans h1, ⟨_, by rw [h2, WritePort.writeBits_eq, WritePort.writeSeq_writeSeq]⟩, h3⟩

theorem pdecRun_cases (root : HuffTree) (rd : ReadPort) (wr : WritePort) :
    rd.Moves (pdecRun root rd wr).rd ∧ (∃ more, (pdecRun root rd wr).wr = wr.writeSeq more) ∧
      ∀ e, (pdecRun root rd wr).err = some e → e = .truncatedPayload ∨ e = .illFormedTree := by
  cases root with
  | leaf s w =>
    rw [show pdecRun (.leaf s w) rd wr =
      if s = eos then ⟨.leaf s w, rd, wr, none⟩ else ⟨.leaf s w, rd, wr, some .illFormedTree⟩ from Eq.refl _]
    split
    · exact ⟨.rfl, ⟨[], by simp⟩, by simp⟩
    · exact ⟨.rfl, ⟨[], by simp⟩, fun e he => Or.inr (Option.some.inj he).symm⟩
  | node w l r => exact pdecLoop_cases _ _ _ _ _

/-- Everything PDEC can do (R171). -/
theorem pdec_cases (s : State) :
    (∃ cur rd more e, pdec s = (((s.setCur cur).setRd rd).setWr (s.wr.writeSeq more)).endWith .other e ∧
      (e = none ∨ e = some .truncatedPayload ∨ e = some .illFormedTree) ∧ s.rd.Moves rd ∧ s.wr.closed = false) ∨
    pdec s = s.raise .other .sequence := by
  unfold pdec
  cases s.treeValid with
  | false => exact Or.inr rfl
  | true =>
    cases hw : s.wr.closed with
    | true => exact Or.inr rfl
    | false =>
      obtain ⟨h1, ⟨more, h2⟩, h3⟩ := pdecRun_cases s.tree s.rd s.wr
      refine Or.inl ⟨_, _, more, _, by rw [← h2]; rfl, ?_, h1, rfl⟩
      cases he : (pdecRun s.tree s.rd s.wr).err with
      | none => exact Or.inl rfl
      | some e => exact Or.inr ((h3 e he).imp (congrArg some) (congrArg some))

/-! ### WMAGIC and CMAGIC -/

/-- Everything WMAGIC can do (R187). -/
theorem wmagic_cases (p : Params) (s : State) :
    (s.wr.closed = false ∧ wmagic p s = s.setWr (s.wr.writeSeq (bitsOf p.magic))) ∨ wmagic p s = s.raise .other .sequence := by
  unfold wmagic
  cases hw : s.wr.closed with
  | true => exact Or.inr rfl
  | false => exact Or.inl ⟨rfl, rfl⟩

/-- Everything CMAGIC can do (R188). -/
theorem cmagic_cases (p : Params) (s : State) :
    ∃ rd e, cmagic p s = (s.setRd rd).endWith .other e ∧ (e = none ∨ e = some .format) ∧ s.rd.Moves rd := by
  unfold cmagic
  split
  · rename_i rd' h; exact ⟨rd', some .format, rfl, Or.inr rfl, ReadPort.readBits_moves h⟩
  · rename_i v rd' h
    split
    · exact ⟨rd', none, rfl, Or.inl rfl, ReadPort.readBits_moves h⟩
    · exact ⟨rd', some .format, rfl, Or.inr rfl, ReadPort.readBits_moves h⟩

end Sys2Proof.Machine
end

