-- ==== Sys2Proof/Laws/PerInstr.lean ====
section
/-!
SUPPORT. One statement about every command as syntax: its word has the one format CMD8 (spec/30_encoding.md R75), the
operation number being the command's place in the table (R76).
-/

namespace Sys2Proof.Laws.LegalWord

/-- The word of a command is a legal command word, and the command is well formed. -/
def Statement (i : Instr) : Prop := commandWordWellFormed (encode i) = true ∧ i.wellFormed = true

theorem nop : Statement .nop := ⟨by decide, rfl⟩
theorem fcount : Statement .fcount := ⟨by decide, rfl⟩
theorem tbuild : Statement .tbuild := ⟨by decide, rfl⟩
theorem ctgen : Statement .ctgen := ⟨by decide, rfl⟩
theorem tenc : Statement .tenc := ⟨by decide, rfl⟩
theorem tdec : Statement .tdec := ⟨by decide, rfl⟩
theorem penc : Statement .penc := ⟨by decide, rfl⟩
theorem pdec : Statement .pdec := ⟨by decide, rfl⟩
theorem wmagic : Statement .wmagic := ⟨by decide, rfl⟩
theorem cmagic : Statement .cmagic := ⟨by decide, rfl⟩
theorem rewind : Statement .rewind := ⟨by decide, rfl⟩
theorem close : Statement .close := ⟨by decide, rfl⟩
theorem compress : Statement .compress := ⟨by decide, rfl⟩
theorem decompress : Statement .decompress := ⟨by decide, rfl⟩
theorem clear : Statement .clear := ⟨by decide, rfl⟩

end Sys2Proof.Laws.LegalWord
end

