-- ==== Sys2Proof/Tests/Slice0.lean ====
section
/-!
SUPPORT. The model's own tests: the words and vectors of the spec (spec/30_encoding.md R76, spec/95_test_vectors.md), and
for every obligation with hypotheses a state and operands that meet them. What depends on the open parameters is run at
the spec's default values, Config.defaults.
-/

namespace Sys2Proof.Tests

open Sys2Proof.Machine Sys2Proof.Config

-- One test after the other: tests evaluated side by side hold a thread's stack each.
set_option Elab.async false

/-! ### Helpers -/

/-- The next state, where there is one. -/
def after (o : Host.Outcome State Fault Refusal) : Option State :=
  match o with
  | .next s => some s
  | .fault _ => none
  | .refused _ => none

/-- A bit sequence written in the digits 0 and 1. -/
def digits (l : List Nat) : Bits := l.map fun d => d == 1

/-- The state after reset with a stream attached to RD. -/
def reading (bytes : List Byte) : State := State.reset.setRd (ReadPort.attached bytes)

/-- The state after reset with these counts written, `(symbol, count)` each. -/
def counted (l : List (Nat × Nat)) : State :=
  l.foldl (fun s c => s.setFreq (freqWrite defaults s.freq (Fin.ofNat 257 c.1) c.2)) State.reset

/-- The state after reset with a decoded tree. -/
def holding (t : HuffTree) : State := State.reset.setTree .tdec t

/-- The state after reset with WR closed. -/
def shut : State := State.reset.setWr { bits := [], closed := true }

/-- The state after reset with the host about to do `a`. -/
def doing (a : HostAction) : State := State.reset.setHost { script := [a], reply := none }

/-- The tree of vector V12 as TDEC leaves it: EOS left, 65 right. -/
def pair : HuffTree := .node 0 (.leaf 256#9 0) (.leaf 65#9 0)

/-- The tree of vector V31: 65 on two leaves. -/
def twice : HuffTree := .node 0 (.leaf 65#9 0) (.node 0 (.leaf 65#9 0) (.leaf 256#9 0))

/-- A comb of `n` internal nodes: every left child is a leaf. -/
def comb : Nat → HuffTree
  | 0 => .leaf 256#9 0
  | n + 1 => .node 0 (.leaf (BitVec.ofNat 9 n) 0) (comb n)

/-! ### Decoding and well-formedness (R75 to R78, V35) -/

theorem test_decode_words :
    decode 0b00000000#8 = .ok .nop ∧ decode 0b00000001#8 = .ok .fcount ∧ decode 0b00000010#8 = .ok .tbuild ∧
    decode 0b00000011#8 = .ok .ctgen ∧ decode 0b00000100#8 = .ok .tenc ∧ decode 0b00000101#8 = .ok .tdec ∧
    decode 0b00000110#8 = .ok .penc ∧ decode 0b00000111#8 = .ok .pdec ∧ decode 0b00001000#8 = .ok .wmagic ∧
    decode 0b00001001#8 = .ok .cmagic ∧ decode 0b00001010#8 = .ok .rewind ∧ decode 0b00001011#8 = .ok .close ∧
    decode 0b00001100#8 = .ok .compress ∧ decode 0b00001101#8 = .ok .decompress ∧ decode 0b00001110#8 = .ok .clear := by
  decide

/-- V35. -/
theorem test_decode_illegal :
    decode 0x0F#8 = .error .reservedOperation ∧ decode 0x10#8 = .error .reservedBits ∧
    decode 0x80#8 = .error .reservedBits ∧ decode 0xFF#8 = .error .reservedBits ∧ decode 0x12#8 = .error .reservedBits := by
  decide

/-- One ill-formed word for each check on a command word (R75, R77). -/
theorem test_wellFormed_word :
    reservedBitsClear 0x10#8 = false ∧ operationExists 0x0F#8 = false ∧ commandWordWellFormed 0x10#8 = false ∧
    commandWordWellFormed 0x0F#8 = false ∧ commandWordWellFormed 0x0E#8 = true := by decide

/-- One ill-formed tree for each check on a tree (R30). -/
theorem test_wellFormed_tree :
    twice.wellFormed = false ∧ (HuffTree.node 0 (.leaf 300#9 0) (.leaf 256#9 0)).wellFormed = false ∧
    pair.wellFormed = true ∧ pair.complete = true ∧ (HuffTree.leaf 65#9 0).complete = false := by decide

theorem test_decodeTableWord : decodeTableWord 8 0x02 = some .tbuild ∧ decodeTableWord 8 0x0F = none := by decide

/-- The very next step after withFetchWord runs that command (P6). -/
theorem test_withFetchWord :
    ((after (step (State.reset.withFetchWord 8 0x03))).map fun t => (t.err, t.errcode, t.host.script)) =
      some (true, 4#4, []) := by decide +kernel

/-! ### The ports (V1 to V4) -/

/-- V1. -/
theorem test_readBits :
    let rd := ReadPort.attached [0xA5#8, 0x3C#8]
    (rd.readBits 1).1 = some 1#1 ∧ ((rd.readBits 1).2.readBits 9).1 = some 148#9 ∧
    ((rd.readBits 1).2.readBits 9).2.pos = 10 ∧
    ((rd.readBits 1).2.readBits 9).2.readBits 8 = (none, { rd with pos := 16 }) ∧
    rd.readBits 32 = (none, { rd with pos := 16 }) := by decide +kernel

/-- V2: two bits are held back, then six are padded. -/
theorem test_close_pads :
    let wr := (WritePort.attached.writeBits 1#1).writeBits 256#9
    wr.bytes = [0xC0#8] ∧ (wr.close false).bytes = [0xC0#8, 0x00#8] ∧ (wr.close false).close false = wr.close false := by
  decide +kernel

/-! ### FCOUNT -/

/-- V7. -/
theorem test_fcount_counts :
    let s := fcount defaults (reading [0x00#8, 0xFF#8, 0x00#8])
    freqAt s.freq 0 = 2 ∧ freqAt s.freq 255 = 1 ∧ freqAt s.freq 65 = 0 ∧ freqAt s.freq 256 = 1 ∧ s.rd.pos = 24 := by
  decide +kernel

/-- V9. -/
theorem test_fcount_saturates :
    freqAt (fcount { defaults with countWLess1 := 1 } (reading [0x41#8, 0x41#8, 0x41#8, 0x41#8, 0x41#8])).freq 65 = 3 := by
  decide +kernel

/-! ### TBUILD -/

/-- V16, the tree of "abracadabra". -/
theorem test_tbuild_abracadabra :
    (tbuild defaults (counted [(97, 5), (98, 2), (99, 1), (100, 1), (114, 2)])).tree =
      .node 12 (.leaf 97#9 5) (.node 7 (.node 3 (.leaf 256#9 1) (.leaf 98#9 2))
        (.node 4 (.leaf 114#9 2) (.node 2 (.leaf 99#9 1) (.leaf 100#9 1)))) := by decide +kernel

/-- V11, and that CODE_VALID is cleared (V39). -/
theorem test_tbuild_empty :
    let s := tbuild defaults (State.reset.setCode codeAbsent)
    s.tree = .leaf 256#9 1 ∧ s.treeValid = true ∧ s.treeSrc = .tbuild ∧ s.codeValid = false := by decide +kernel

/-! ### CTGEN -/

/-- V12: the code of each symbol, and the empty code of a lone leaf (V11). -/
theorem test_ctgen_codes :
    codeAt (ctgen (holding pair)).code 256#9 = some (digits [0]) ∧ codeAt (ctgen (holding pair)).code 65#9 = some (digits [1]) ∧
    codeAt (ctgen (holding pair)).code 66#9 = none ∧ (ctgen (holding pair)).codeValid = true ∧
    codeAt (ctgen (holding (.leaf 256#9 0))).code 256#9 = some [] := by decide +kernel

/-- The refusals of section 2.3. -/
theorem test_ctgen_refuses :
    (ctgen (holding twice)).errcode = 6#4 ∧
    (ctgen (holding (.node 0 (.leaf 300#9 0) (.leaf 256#9 0)))).errcode = 6#4 ∧
    (ctgen State.reset).errcode = 4#4 ∧ (ctgen State.reset).codeValid = false := by decide +kernel

/-! ### TENC and TDEC -/

/-- V12, the other member of Huff aside: 21 bits. -/
theorem test_tenc_header :
    (tenc (holding pair)).wr.bits = digits [0, 1, 1, 0, 0, 0, 0, 0, 0, 0, 0, 1, 0, 0, 1, 0, 0, 0, 0, 0, 1] := by
  decide +kernel

/-- V38. -/
theorem test_tenc_refuses : (tenc shut).errcode = 4#4 ∧ (tenc shut).wr = shut.wr := by decide +kernel

/-- P2, step 2: the header stands at bit 32. -/
theorem test_tdec_header :
    let s := tdec (((reading [0xFA#8, 0xCE#8, 0x82#8, 0x01#8, 0x60#8, 0x12#8, 0x0F#8, 0x80#8])).setRd
      { bits := bitsOfBytes [0xFA#8, 0xCE#8, 0x82#8, 0x01#8, 0x60#8, 0x12#8, 0x0F#8, 0x80#8], pos := 32 })
    s.tree = pair ∧ s.treeValid = true ∧ s.treeSrc = .tdec ∧ s.rd.pos = 53 ∧ s.err = false := by decide +kernel

/-- V33: with 512 nodes counted, one more node is read and the node after it refused before its flag. -/
theorem test_tdec_capacity :
    let run := readTree nodeCap 512 (ReadPort.attached [0#8])
    (match run.result with | .error e => e == .capacity | .ok _ => false) = true ∧ run.count = 513 ∧ run.rd.pos = 1 := by
  decide +kernel

/-- V26 after the magic number: 6 bits left for a 9-bit value. -/
theorem test_tdec_truncated :
    let s := tdec (reading [0x60#8])
    s.errcode = 2#4 ∧ s.rd.pos = 8 ∧ s.treeValid = false := by decide +kernel

/-! ### PENC and PDEC -/

/-- V12f: the payload of four units. -/
theorem test_penc_payload :
    let s := penc ((ctgen (holding pair)).setRd (ReadPort.attached [0x41#8, 0x41#8, 0x41#8, 0x41#8]))
    s.wr.bits = digits [1, 1, 1, 1, 0] ∧ s.rd.pos = 32 ∧ s.err = false := by decide +kernel

/-- Section 2.4: the second unit has no code. -/
theorem test_penc_noCode :
    let s := penc ((ctgen (holding pair)).setRd (ReadPort.attached [0x41#8, 0x42#8]))
    s.wr.bits = digits [1] ∧ s.rd.pos = 16 ∧ s.errcode = 7#4 := by decide +kernel

/-- V31's payload 0 10 11, with 65 on two leaves. -/
theorem test_pdec_walks :
    let s := pdec ((holding twice).setRd { bits := digits [0, 1, 0, 1, 1, 0, 0, 0], pos := 0 })
    s.wr.bytes = [0x41#8, 0x41#8] ∧ s.rd.pos = 5 ∧ s.err = false := by decide +kernel

/-- V29 and V28: a reserved leaf that is reached, and a root leaf that is not EOS. -/
theorem test_pdec_refuses :
    let s := pdec ((holding (.node 0 (.leaf 300#9 0) (.leaf 256#9 0))).setRd { bits := digits [0, 0, 0, 0, 0, 0, 0, 0], pos := 0 })
    s.errcode = 6#4 ∧ s.rd.pos = 1 ∧ s.wr.bits = [] ∧
    (pdec (holding (.leaf 65#9 0))).errcode = 6#4 ∧ (pdec (holding (.leaf 256#9 0))).err = false := by decide +kernel

/-! ### WMAGIC, CMAGIC, REWIND, CLOSE, NOP and CLEAR -/

/-- P1, step 5, and V37. -/
theorem test_wmagic :
    (wmagic defaults State.reset).wr.bytes = [0xFA#8, 0xCE#8, 0x82#8, 0x01#8] ∧ (wmagic defaults shut).errcode = 4#4 ∧
    (wmagic defaults shut).wr = shut.wr := by decide +kernel

/-- V20, V22 and V23. -/
theorem test_cmagic :
    (cmagic defaults (reading [0xFA#8, 0xCE#8, 0x82#8, 0x01#8, 0x60#8])).err = false ∧
    (cmagic defaults (reading [0xFA#8, 0xCE#8, 0x82#8, 0x00#8, 0x60#8])).errcode = 1#4 ∧
    (cmagic defaults (reading [0xFA#8, 0xCE#8, 0x82#8, 0x00#8, 0x60#8])).rd.pos = 32 ∧
    (cmagic defaults (reading [0xFA#8, 0xCE#8, 0x82#8])).errcode = 1#4 ∧
    (cmagic defaults (reading [0xFA#8, 0xCE#8, 0x82#8])).rd.pos = 24 := by decide +kernel

/-- P1, step 2. -/
theorem test_rewind : rewind ((reading [0x41#8]).setRd { bits := bitsOfBytes [0x41#8], pos := 8 }) = reading [0x41#8] := rfl

/-- P1, step 8. -/
theorem test_close :
    (closeWr defaults (State.reset.setWr { bits := List.replicate 58 true, closed := false })).wr.bits =
      List.replicate 58 true ++ digits [0, 0, 0, 0, 0, 0] ∧ (closeWr defaults shut).wr = shut.wr := by decide +kernel

/-- V36: NOP under an error does nothing. -/
theorem test_nop : after (exec .nop (State.reset.raise .other .sequence)) =
    some (State.reset.raise .other .sequence) := rfl

/-- P4, step 4: STATUS is 0x10 after CLEAR with WR closed. -/
theorem test_clear :
    let s := (((holding pair).setWr shut.wr).raise .other .truncatedPayload)
    s.statusWord = 0x17#8 ∧ s.cleared.statusWord = 0x10#8 ∧ s.cleared.errcode = 0#4 := by decide +kernel

/-! ### COMPRESS and DECOMPRESS -/

/-- V16f. -/
theorem test_compress_abracadabra :
    (compress defaults (reading
      [0x61#8, 0x62#8, 0x72#8, 0x61#8, 0x63#8, 0x61#8, 0x64#8, 0x61#8, 0x62#8, 0x72#8, 0x61#8])).wr.bytes =
      [0xFA#8, 0xCE#8, 0x82#8, 0x01#8, 0x4C#8, 0x26#8, 0x01#8, 0x31#8, 0x27#8, 0x24#8, 0xC7#8, 0x32#8, 0x2E#8, 0x73#8,
        0xD7#8, 0x20#8] := by decide +kernel

/-- V11f and P1's STATUS. -/
theorem test_compress_empty :
    (compress defaults (reading [])).wr.bytes = [0xFA#8, 0xCE#8, 0x82#8, 0x01#8, 0xC0#8, 0x00#8] ∧
    (compress defaults (reading [])).statusWord = 0x1A#8 := by decide +kernel

/-- V27: the file of V20 with bytes after it. -/
theorem test_decompress :
    let s := decompress defaults
      (reading [0xFA#8, 0xCE#8, 0x82#8, 0x01#8, 0x60#8, 0x12#8, 0x0F#8, 0x80#8, 0xFF#8, 0xFF#8])
    s.wr.bytes = [0x41#8, 0x41#8, 0x41#8, 0x41#8] ∧ s.rd.pos = 58 ∧ s.tree = pair ∧ s.statusWord = 0x16#8 := by
  decide +kernel

/-- V24: the file cut short; WR is closed all the same. -/
theorem test_decompress_truncated :
    let s := decompress defaults (reading [0xFA#8, 0xCE#8, 0x82#8, 0x01#8, 0x60#8, 0x12#8, 0x0F#8])
    s.errcode = 3#4 ∧ s.wr.bytes = [0x41#8, 0x41#8, 0x41#8] ∧ s.rd.pos = 56 ∧ s.statusWord = 0x17#8 := by decide +kernel

/-! ### The gate and the host (V10, V35, V36) -/

/-- V36: a command under an error changes nothing. -/
theorem test_gate : after (exec .tbuild (State.reset.raise .other .sequence)) =
    some (State.reset.raise .other .sequence) := rfl

/-- V35: the word 0x0F. -/
theorem test_illegal_word : (after (step (State.reset.withFetchWord 8 0x0F))).map (fun t => t.errcode) = some 8#4 := by
  decide +kernel

/-- V10, and the host's write to another entry. -/
theorem test_host_freq :
    freqAt (State.reset.hostAccess defaults (.writeFreq 256 7)).freq 256 = 1 ∧
    freqAt (State.reset.hostAccess defaults (.writeFreq 97 5)).freq 97 = 5 := by decide +kernel

/-! ### Witnesses: for each obligation with hypotheses, a state and operands that meet them, one for each clause -/

/-- The state after CTGEN on `pair`, with two units of 65 to encode. -/
def encoding : State := (ctgen (holding pair)).setRd (ReadPort.attached [0x41#8, 0x41#8])

/-- The state after reset with the block's own magic number, and then `x`, to read. -/
def file (x : Bits) : State := State.reset.setRd { bits := bitsOf magic ++ x, pos := 0 }

/-- The counts of one unit 65. -/
def oneUnit : FreqTable := freqWrite defaults freqZero 65 1

theorem test_witness_DecodeEncodeAgree : decode 0x0E#8 = .ok .clear := by decide

theorem test_witness_StepRunsDecodedCommand :
    (doing (.cmd 0x01#8)).host.script = .cmd 0x01#8 :: [] ∧ decode 0x01#8 = .ok .fcount := by decide

theorem test_witness_EmptyScriptWaits : State.reset.host.script = [] := by decide

theorem test_witness_IllegalWordRaises :
    (doing (.cmd 0x0F#8)).host.script = .cmd 0x0F#8 :: [] ∧ (doing (.cmd 0x0F#8)).err = false ∧
    (doing (.cmd 0x10#8)).host.script = .cmd 0x10#8 :: [] ∧ (0x10#8).extractLsb' 4 4 ≠ 0#4 ∧
    ((doing (.cmd 0x0F#8)).raise .other .format).host.script = .cmd 0x0F#8 :: [] ∧
    ((doing (.cmd 0x0F#8)).raise .other .format).err = true := by decide

theorem test_witness_StepDoesHostAccess (a : HostAccess) : (doing (.access a)).host.script = .access a :: [] := rfl

/-- An access that is no attach WR, and a command on a closed port. -/
theorem test_witness_AttachGivesFreshPorts :
    HostAccess.reset ≠ .attachWr ∧ shut.wr.closed = true ∧ ∃ t, exec .wmagic shut = .next t := ⟨by decide, rfl, _, rfl⟩

/-- Every element, the valid flags both off and on: the states that the clauses of HostReadsReturn tell apart. -/
theorem test_witness_HostReadsReturn :
    State.reset.treeValid = false ∧ State.reset.codeValid = false ∧ encoding.treeValid = true ∧ encoding.codeValid = true := by
  decide

/-- The first and the last bit of a stream of two bytes, and the last whole byte's last bit of ten bits written. -/
theorem test_witness_StreamByteOrder :
    0 < 8 * [0xA5#8, 0x3C#8].length ∧ 15 < 8 * [0xA5#8, 0x3C#8].length ∧
    7 < 8 * ((WritePort.mk (List.replicate 10 true) false).bits.length / 8) := by decide

/-- The last bit is there, and the one after it is not. -/
theorem test_witness_ReadBitsSpec :
    1 ≤ 1 ∧ (7 + 1 ≤ (bitsOfBytes [0x41#8]).length) ∧ ¬ 8 + 1 ≤ (bitsOfBytes [0x41#8]).length := by decide

theorem test_witness_WholeBytesVisible :
    0 < (WritePort.mk (bitsOfBytes [0x41#8]) false).bits.length / 8 ∧ (WritePort.mk (bitsOfBytes [0x41#8]) false).closed = false := by
  decide

theorem test_witness_FcountCountsUnits : (reading [0x00#8, 0xFF#8, 0x00#8]).err = false := by decide

theorem test_witness_TbuildBuildsHuffTree : (counted [(97, 5)]).err = false := rfl

theorem test_witness_CtgenWritesPaths :
    (holding pair).err = false ∧ (holding pair).treeValid = true ∧ (holding pair).tree.wellFormed = true ∧
    State.reset.treeValid = false ∧ (holding twice).treeValid = true ∧ (holding twice).tree.wellFormed = false := by decide

theorem test_witness_TencAppendsHeader :
    (holding pair).err = false ∧ (holding pair).treeValid = true ∧ (holding pair).wr.closed = false ∧
    State.reset.treeValid = false ∧ shut.wr.closed = true := by decide

/-- The largest tree that is stored, and the smallest count of nodes that is not; the empty stream. -/
theorem test_witness_TdecReadsHeader :
    deser (ser (comb 256)) = some (comb 256, []) ∧ (comb 256).nodes = 513 ∧
    preorderRead 513 1 (List.replicate 520 false) = some (513 + 1, List.replicate 7 false) ∧
    preorderRead 513 1 [] = none := by decide +kernel

theorem test_witness_PencEncodesUnits :
    encoding.err = false ∧ encoding.codeValid = true ∧ encoding.wr.closed = false ∧
    (∀ u ∈ encoding.rd.units, (codeAt encoding.code (symbolOf u)).isSome) ∧ codeAt encoding.code eos = some [false] := by
  decide +kernel

theorem test_witness_PencEncodesUnits_missing :
    (∀ u ∈ (reading [0x41#8]).rd.units, (codeAt (codeSet codeAbsent 65#9 []) (symbolOf u)).isSome) ∧
    codeAt (codeSet codeAbsent 65#9 []) eos = none ∧
    (reading [0x41#8, 0x42#8]).rd.units = [0x41#8] ++ 0x42#8 :: [] ∧
    codeAt (codeSet codeAbsent 65#9 []) (symbolOf 0x42#8) = none ∧ State.reset.codeValid = false ∧ shut.wr.closed = true := by
  decide +kernel

theorem encoding_table : isCodeTableOf encoding.code pair := by unfold isCodeTableOf; decide +kernel

theorem test_witness_PencWritesPayload :
    encoding.err = false ∧ encoding.codeValid = true ∧ encoding.wr.closed = false ∧ isCodeTableOf encoding.code encoding.tree ∧
    unitsIn encoding.rd.units encoding.tree ∧ eos ∈ encoding.tree.leaves :=
  ⟨rfl, rfl, rfl, encoding_table, by unfold unitsIn; decide +kernel, by decide +kernel⟩

theorem test_witness_PdecSingleLeaf :
    (holding (.leaf 256#9 0)).err = false ∧ (holding (.leaf 256#9 0)).treeValid = true ∧
    (holding (.leaf 256#9 0)).wr.closed = false ∧ (holding (.leaf 256#9 0)).tree = .leaf 256#9 0 ∧
    (holding (.leaf 257#9 0)).tree = .leaf 257#9 0 ∧ 257#9 ≠ 256#9 := by decide

/-- The three endings: one unit and the sentinel, a reserved leaf, no bit. -/
theorem test_witness_PdecDecodesBits :
    (holding pair).err = false ∧ (holding pair).treeValid = true ∧ (holding pair).wr.closed = false ∧
    (holding pair).tree.isLeaf = false ∧ Decodes pair [true, false] [0x41#8] .sentinel [] ∧
    Decodes (.node 0 (.leaf 300#9 0) (.leaf 256#9 0)) [false] [] .reserved [] ∧ Decodes pair [] [] .exhausted [] ∧
    State.reset.treeValid = false ∧ shut.wr.closed = true ∧ (holding (.leaf 256#9 0)).tree.isLeaf = true :=
  ⟨rfl, rfl, rfl, rfl,
    .unit (b' := [false]) (s := 65#9) (by decide) (by decide) (.sentinel (by decide)),
    .reserved (s := 300#9) (by decide) (by decide), .exhausted (by decide), rfl, rfl, rfl⟩

theorem test_witness_WmagicWritesMagic :
    State.reset.err = false ∧ State.reset.wr.closed = false ∧ shut.err = false ∧ shut.wr.closed = true := by decide

theorem test_witness_CmagicChecksMagic :
    (file []).err = false ∧ (file []).rd.rest = bitsOf magic ++ [] ∧
    (State.reset.setRd { bits := bitsOf (magic + 1#32) ++ [], pos := 0 }).rd.rest = bitsOf (magic + 1#32) ++ [] ∧
    magic + 1#32 ≠ magic ∧ (reading [0xFA#8, 0xCE#8, 0x82#8]).rd.rest.length < 32 :=
  ⟨rfl, rfl, rfl, by simp, by decide⟩

theorem test_witness_RewindReplaysStream : (reading [0x41#8]).err = false := by decide

theorem test_witness_ClosePadsAndCloses : State.reset.wr.closed = false ∧ shut.wr.closed = true := by decide

theorem test_witness_CompressWritesFile :
    (reading [0x41#8]).err = false ∧ (reading [0x41#8]).wr.closed = false ∧ shut.err = false ∧ shut.wr.closed = true := by
  decide

theorem test_witness_CompressIsScript :
    (reading [0x41#8]).err = false ∧ (reading [0x41#8]).wr.closed = false ∧ shut.err = false ∧ shut.wr.closed = true := by
  decide

/-- CMAGIC passes on a file. -/
theorem cmagic_file (x : Bits) : cmagic params (file x) = (file x).setRd { bits := bitsOf magic ++ x, pos := 32 } := by
  have h := (ReadPort.readBits_of_rest (n := 32) (rd := (file x).rd) (v := magic) (x := x) (by decide) rfl).1
  simp only [cmagic, h]
  exact if_pos rfl

/-- CMAGIC raises on the empty stream; on the magic number alone TDEC raises; after a header neither does. -/
theorem test_witness_DecompressIsScript :
    State.reset.err = false ∧ State.reset.wr.closed = false ∧ (cmagic params State.reset).err = true ∧
    (cmagic params (file [])).err = false ∧ (tdec (cmagic params (file []))).err = true ∧
    (tdec (cmagic params (file (ser pair)))).err = false ∧ (pdec (tdec (cmagic params (file (ser (.leaf 256#9 0)))))).err = false ∧
    shut.wr.closed = true := by
  rw [cmagic_file, cmagic_file, cmagic_file]
  exact ⟨rfl, rfl, rfl, rfl, by decide +kernel, by decide +kernel, by decide +kernel, rfl⟩

theorem test_witness_DecompressReadsFile :
    (file (ser pair ++ pay [0x41#8] pair ++ [true])).err = false ∧
    (file (ser pair ++ pay [0x41#8] pair ++ [true])).wr.closed = false ∧ pair.complete = true ∧ unitsIn [0x41#8] pair ∧
    (file (ser pair ++ pay [0x41#8] pair ++ [true])).rd.rest = bitsOf magic ++ ser pair ++ pay [0x41#8] pair ++ [true] :=
  ⟨rfl, rfl, by decide, by unfold unitsIn; decide, rfl⟩

theorem test_witness_RoundTrip :
    (reading [0x41#8, 0x42#8]).err = false ∧ (reading [0x41#8, 0x42#8]).rd = ReadPort.attached [0x41#8, 0x42#8] ∧
    (reading [0x41#8, 0x42#8]).wr = WritePort.attached := by decide

/-- Two states with different trees and flags and the same ports. -/
theorem test_witness_CompositesDeterministic :
    (reading [0x41#8]).err = false ∧ ((holding pair).setRd (ReadPort.attached [0x41#8])).err = false ∧
    (reading [0x41#8]).wr = WritePort.attached ∧ ((holding pair).setRd (ReadPort.attached [0x41#8])).wr = WritePort.attached ∧
    (reading [0x41#8]).rd = ((holding pair).setRd (ReadPort.attached [0x41#8])).rd ∧
    (reading [0x41#8]).rd.bits = ((holding pair).setRd (ReadPort.attached [0x41#8])).rd.bits := by decide

/-- A word that is ignored, CLOSE and CLEAR. -/
theorem test_witness_GateIgnoresCommands :
    ((doing (.cmd 0x02#8)).raise .other .format).err = true ∧
    ((doing (.cmd 0x02#8)).raise .other .format).host.script = .cmd 0x02#8 :: [] ∧
    ((doing (.cmd 0x0B#8)).raise .other .format).host.script = .cmd 0x0B#8 :: [] ∧
    ((doing (.cmd 0x0E#8)).raise .other .format).host.script = .cmd 0x0E#8 :: [] := by decide

/-- A command that is ignored, CLEAR and the host's reset. -/
theorem test_witness_ErrorsAreSticky :
    ((doing (.cmd 0x02#8)).raise .other .format).err = true ∧
    (∃ t, step ((doing (.cmd 0x02#8)).raise .other .format) = .next t ∧ t.err = true) ∧
    (∃ t, step ((doing (.cmd 0x0E#8)).raise .other .format) = .next t ∧ t.err = false) ∧
    ∃ t, step ((doing (.access .reset)).raise .other .format) = .next t ∧ t.err = false :=
  ⟨rfl, ⟨_, rfl, rfl⟩, ⟨_, rfl, rfl⟩, _, rfl, rfl⟩

/-- No error, CLEAR, and an error. -/
theorem test_witness_ErrorsPerCommand :
    State.reset.err = false ∧ (∃ t, exec .rewind State.reset = .next t ∧ t.err = false) ∧
    (∃ t, exec .clear State.reset = .next t) ∧ ∃ t, exec .ctgen State.reset = .next t ∧ t.err = true :=
  ⟨rfl, ⟨_, rfl, rfl⟩, ⟨_, rfl⟩, _, rfl, rfl⟩

/-- A raising TDEC, CTGEN, CMAGIC and DECOMPRESS; the last with TruncatedHeaderError. -/
theorem test_witness_ErrorEntryLeaves :
    State.reset.err = false ∧ (∃ t, exec .tdec State.reset = .next t ∧ t.err = true) ∧
    (∃ t, exec .ctgen State.reset = .next t ∧ t.err = true) ∧ (∃ t, exec .cmagic State.reset = .next t ∧ t.err = true) ∧
    (file []).err = false ∧ ∃ t, exec .decompress (file []) = .next t ∧ t.err = true ∧ t.errcode = 2#4 := by
  have h : decompress params (file []) =
      closeWr params ((((file []).setRd { bits := bitsOf magic ++ [], pos := 32 }).gate tdec).gate pdec) := by
    rw [← cmagic_file]; rfl
  refine ⟨rfl, ⟨_, rfl, rfl⟩, ⟨_, rfl, rfl⟩, ⟨_, rfl, rfl⟩, rfl, _, rfl, ?_⟩
  rw [State.gate_of_ok (s := file []) rfl, h]
  exact ⟨rfl, rfl⟩

/-- TBUILD, a TDEC that succeeds and one that raises. -/
theorem test_witness_StaleTableRefused :
    encoding.err = false ∧ (∃ t, exec .tbuild encoding = .next t ∧ t.err = false) ∧
    (∃ t, exec .tdec (encoding.setRd { bits := ser pair, pos := 0 }) = .next t ∧ t.err = false) ∧
    ∃ t, exec .tdec State.reset = .next t ∧ t.err = true :=
  ⟨rfl, ⟨_, rfl, rfl⟩, ⟨_, rfl, rfl⟩, _, rfl, rfl⟩

/-- For each command a next state. -/
theorem test_witness_TablesFrame (i : Instr) : ∃ t, exec i encoding = .next t := exec_answers i encoding

/-- For each command a next state, with WR closed too. -/
theorem test_witness_PortsFrame (i : Instr) : (∃ t, exec i encoding = .next t) ∧ (∃ t, exec i shut = .next t) ∧
    shut.wr.closed = true := ⟨exec_answers i encoding, exec_answers i shut, rfl⟩

theorem encoding_inv : encoding.Inv params where
  errcode_iff := by decide
  errcode_le := by decide
  code_of_tree := fun _ => ⟨rfl, by decide, encoding_table⟩
  nodes_le := fun _ => by decide
  built := fun _ h => by cases h
  decoded := fun _ _ => rfl
  counts := countsFit_zero params
  code_length := by
    have h : ∀ i : Fin 257, ((encoding.code[i.val]'i.isLt).getD []).length ≤ 256 := by decide +kernel
    intro i c hc
    simpa [hc] using h i
  rd_wf := by constructor <;> decide
  wr_wf := by intro h; cases h

theorem test_witness_StepKeepsInvariant : encoding.Inv params ∧ ∃ t, step encoding = .next t := ⟨encoding_inv, _, rfl⟩

theorem test_witness_HeaderInverses : deser (ser pair ++ [true]) = some (pair, [true]) := by decide

theorem test_witness_HeaderPrefixFree : ser pair = ser pair ++ [] := by decide

theorem test_witness_StoredTreeBounds :
    (comb 256).nodes ≤ nodeCap ∧ path (comb 256) 256#9 = some (List.replicate 256 true) := by decide +kernel

theorem test_witness_TencTdecInverse :
    (holding pair).err = false ∧ (holding pair).treeValid = true ∧ (holding pair).wr = WritePort.attached ∧
    (holding pair).tree.nodes ≤ nodeCap ∧ ∃ t, exec .tenc (holding pair) = .next t ∧
    (State.reset.setRd { bits := t.wr.bits ++ [true], pos := 0 }).err = false ∧
    (State.reset.setRd { bits := t.wr.bits ++ [true], pos := 0 }).rd = { bits := t.wr.bits ++ [true], pos := 0 } :=
  ⟨rfl, rfl, rfl, by decide, _, rfl, rfl, rfl⟩

/-- Two symbols with codes, and a lone leaf. -/
theorem test_witness_PrefixProperty :
    encoding.Inv params ∧ encoding.codeValid = true ∧ encoding.tree.nodes > 1 ∧
    encoding.code[65]'(by decide) = some [true] ∧ encoding.code[256]'(by decide) = some [false] ∧
    (ctgen (holding (.leaf 256#9 0))).codeValid = true ∧ (ctgen (holding (.leaf 256#9 0))).tree = .leaf 256#9 0 :=
  ⟨encoding_inv, rfl, by decide, by decide +kernel, by decide +kernel, rfl, rfl⟩

/-- The lone leaf's state meets the invariant too. -/
theorem test_witness_PrefixProperty_leaf : (ctgen (holding (.leaf 256#9 0))).Inv params where
  errcode_iff := by decide
  errcode_le := by decide
  code_of_tree := fun _ => ⟨rfl, by decide, by unfold isCodeTableOf; decide +kernel⟩
  nodes_le := fun _ => by decide
  built := fun _ h => by cases h
  decoded := fun _ _ => rfl
  counts := countsFit_zero params
  code_length := by
    have h : ∀ i : Fin 257, (((ctgen (holding (.leaf 256#9 0))).code[i.val]'i.isLt).getD []).length ≤ 256 := by decide +kernel
    intro i c hc
    simpa [hc] using h i
  rd_wf := by constructor <;> decide
  wr_wf := by intro h; cases h

theorem test_witness_KraftEquality : pair.wellFormed = true := by decide

theorem huff_freqZero : Huff freqZero (.leaf 256#9 1) := by
  have h : leafQueue freqZero = [.leaf 256#9 1] := by decide +kernel
  unfold Huff; rw [h]

theorem huff_oneUnit : Huff oneUnit (.node 2 (.leaf 65#9 1) (.leaf 256#9 1)) := by
  have h : mergeOnce ⟨0, 0, false⟩ (leafQueue oneUnit) = [.node 2 (.leaf 65#9 1) (.leaf 256#9 1)] := by decide +kernel
  unfold Huff; rw [← h]
  exact Relation.ReflTransGen.single (mergeOnce_merges _ (by decide +kernel))

/-- The empty input, and one unit (V11, V13). -/
theorem test_witness_BuiltTreeProperties :
    Huff freqZero (.leaf 256#9 1) ∧ (∀ k < 256, freqAt freqZero k = 0) ∧
    Huff oneUnit (.node 2 (.leaf 65#9 1) (.leaf 256#9 1)) ∧ ∃ k < 256, freqAt oneUnit k ≠ 0 :=
  ⟨huff_freqZero, by decide +kernel, huff_oneUnit, 65, by decide, by decide +kernel⟩

theorem test_witness_PoliciesAreHuff : Huff oneUnit (.node 2 (.leaf 65#9 1) (.leaf 256#9 1)) := huff_oneUnit

theorem test_witness_DefaultPolicyOrder : 2 ≤ [HuffTree.leaf 65#9 1, HuffTree.leaf 256#9 1].length := by decide

theorem test_witness_PdecInvertsPayload :
    ((holding pair).setRd { bits := pay [0x41#8] pair ++ [true], pos := 0 }).err = false ∧
    ((holding pair).setRd { bits := pay [0x41#8] pair ++ [true], pos := 0 }).treeValid = true ∧
    ((holding pair).setRd { bits := pay [0x41#8] pair ++ [true], pos := 0 }).wr.closed = false ∧ pair.complete = true ∧
    unitsIn [0x41#8] pair ∧
    ((holding pair).setRd { bits := pay [0x41#8] pair ++ [true], pos := 0 }).rd.rest = pay [0x41#8] pair ++ [true] :=
  ⟨rfl, rfl, rfl, by decide, by unfold unitsIn; decide, rfl⟩

/-- The payload 1 0 without its last bit, and without any. -/
theorem test_witness_TruncatedPayloadDetected :
    ((holding pair).setRd { bits := [true], pos := 0 }).rd.rest ++ [false] = pay [0x41#8] pair ∧
    (holding pair).rd.rest ++ [true, false] = pay [0x41#8] pair ∧ (holding pair).err = false ∧
    (holding pair).treeValid = true ∧ (holding pair).wr.closed = false ∧ pair.complete = true ∧ unitsIn [0x41#8] pair := by
  refine ⟨by decide, by decide, rfl, rfl, rfl, by decide, by unfold unitsIn; decide⟩

end Sys2Proof.Tests
end

section
/-!
PROOFS of the state's family (spec/10_state.md): the reset values and the prefix property of the code table.
-/

namespace Sys2Proof.Machine

open Sys2Proof.Config

/-! ### Reset and CLEAR -/

theorem State.hostAccess_reset (p : Params) (s : State) : s.hostAccess p .reset = s.cleared := rfl

theorem exec_clear (s : State) : exec .clear s = .next s.cleared := rfl

theorem State.reset_freq : State.reset.freq = freqZero := rfl

theorem State.reset_code : State.reset.code = codeAbsent := rfl

theorem freqAt_freqZero {k : Nat} (hk : k < 256) : freqAt freqZero k = 0 := by
  rw [freqAt_of_lt _ hk, freqZero_get ⟨k, hk⟩]

/-- Settles O12: the host's reset and CLEAR both lead to `State.cleared`, whose tables are those of the reset state. -/
theorem resetValues : Obligations.ResetValues := by
  unfold Obligations.ResetValues
  refine ⟨⟨rfl, rfl, rfl, rfl, rfl, ?_, freqAt_eos _, ?_⟩, fun s => ?_⟩
  · intro k hk
    rw [State.reset_freq, freqAt_freqZero hk]
  · intro i
    rw [State.reset_code, codeAbsent_get]
  · refine ⟨s.cleared, s.hostAccess_reset _, exec_clear s, s.cleared_err, s.cleared_errcode, s.cleared_treeValid,
      s.cleared_treeSrc, s.cleared_codeValid, ?_, freqAt_eos _, ?_, s.cleared_rd, s.cleared_wr⟩
    · intro k hk
      rw [State.cleared_freq, freqAt_freqZero hk]
    · intro i
      rw [State.cleared_code, codeAbsent_get]

/-! ### The prefix property -/

/-- The symbol that an index of CODE stands for. -/
theorem eq_ofNat_iff_toNat_eq (x : Symbol) (i : Fin 257) : x = BitVec.ofNat 9 i.val ↔ x.toNat = i.val := by
  have hi : i.val < 2 ^ 9 := Nat.lt_trans i.isLt (by decide)
  rw [← BitVec.toNat_inj, BitVec.toNat_ofNat, Nat.mod_eq_of_lt hi]

theorem toNat_lt_of_le_eos {x : Symbol} (h : x ≤ eos) : x.toNat < 257 := Nat.lt_succ_of_le (BitVec.le_def.mp h)

/-- Walking the longer of two nested paths reaches the leaf of the shorter one first (R36), so both are one symbol's. -/
theorem path_prefix_symbol_eq {t : HuffTree} {x y : Symbol} {c d : Bits} (hc : path t x = some c)
    (hd : path t y = some d) (hcd : c <+: d) : x = y := by
  obtain ⟨b, rfl⟩ := hcd
  have hx : readCode t (c ++ b) = some (x, b) := readCode_path hc b
  have hy : readCode t (c ++ b) = some (y, []) := by simpa using readCode_path hd []
  rw [hx] at hy
  simp only [Option.some.injEq, Prod.mk.injEq] at hy
  exact hy.1

/-- Distinct entries of a tree's code table are not prefixes of one another, whatever the tree (R36). -/
theorem isCodeTableOf_prefixFree {code : CodeTable} {t : HuffTree} (h : isCodeTableOf code t) {i j : Fin 257}
    {c d : Bits} (hij : i ≠ j) (hc : code[i.val]'i.isLt = some c) (hd : code[j.val]'j.isLt = some d) : ¬ c <+: d := by
  rw [h] at hc hd
  intro hcd
  have hi := (eq_ofNat_iff_toNat_eq _ i).mp rfl
  have hj := (eq_ofNat_iff_toNat_eq _ j).mp (path_prefix_symbol_eq hc hd hcd)
  exact hij (Fin.ext (hi.symm.trans hj))

/-- The code table of a lone leaf: its symbol's entry is empty, the others are absent (R36). -/
theorem isCodeTableOf_leaf_get {code : CodeTable} {x : Symbol} {w : Nat} (h : isCodeTableOf code (.leaf x w))
    (i : Fin 257) : code[i.val]'i.isLt = if i.val = x.toNat then some [] else none := by
  rw [h]
  simp only [path, eq_ofNat_iff_toNat_eq, eq_comm]

/-- Settles O52: under the invariant CODE is the code table of a well-formed TREE. -/
theorem prefixProperty : Obligations.PrefixProperty := by
  unfold Obligations.PrefixProperty
  intro s hs hvalid
  obtain ⟨-, hwf, htable⟩ := hs.code_of_tree hvalid
  refine ⟨fun _ i j c d hij hc hd => isCodeTableOf_prefixFree htable hij hc hd, fun x w hleaf => ?_⟩
  rw [hleaf] at hwf htable
  have hle : x ≤ eos := ((HuffTree.wellFormed_iff _).mp hwf).1 x (by simp [HuffTree.leaves])
  exact ⟨toNat_lt_of_le_eos hle, isCodeTableOf_leaf_get htable⟩

end Sys2Proof.Machine
end

section
/-!
PROOFS of the ports' family (spec/20_memory.md): the byte order of the two streams, reading, the bytes the host sees of
WR, and who can open WR.
-/

namespace Sys2Proof.Machine

open Sys2Proof.Config

/-! ### The byte order of a stream -/

theorem getElem?_bitsOf_byte (b : Byte) {k : Nat} (hk : k < 8) : (bitsOf b)[k]? = some (b.getLsbD (7 - k)) := by
  have hlen : k < (bitsOf b).length := by simpa using hk
  rw [List.getElem?_eq_getElem hlen, getElem_bitsOf]
  simp [BitVec.getMsbD, hk]

/-- R54's mapping, past the last bit too: there is then no byte and no bit. -/
theorem getElem?_bitsOfBytes (l : List Byte) (k : Nat) :
    (bitsOfBytes l)[k]? = l[k / 8]?.map fun b => b.getLsbD (7 - k % 8) := by
  induction l generalizing k with
  | nil => simp
  | cons b l ih =>
    rw [bitsOfBytes_cons]
    by_cases hk : k < 8
    · rw [List.getElem?_append_left (by simpa using hk), getElem?_bitsOf_byte b hk, Nat.div_eq_of_lt hk, Nat.mod_eq_of_lt hk]
      rfl
    · obtain ⟨m, rfl⟩ := Nat.exists_eq_add_of_le' (Nat.le_of_not_lt hk)
      rw [List.getElem?_append_right (by simp), length_bitsOf, Nat.add_sub_cancel, ih, Nat.add_div_right _ (by decide),
        Nat.add_mod_right, List.getElem?_cons_succ]

theorem exists_byte_of_bitsOfBytes {l : List Byte} {k : Nat} (hk : k < 8 * l.length) :
    ∃ b, l[k / 8]? = some b ∧ (bitsOfBytes l)[k]? = some (b.getLsbD (7 - k % 8)) := by
  have hbyte : l[k / 8]? = some l[k / 8] := List.getElem?_eq_getElem (Nat.div_lt_of_lt_mul hk)
  exact ⟨_, hbyte, by rw [getElem?_bitsOfBytes, hbyte]; rfl⟩

/-- What WR holds is its whole bytes, in the order of R54, and fewer than 8 bits more (R61). -/
theorem WritePort.bits_eq_bytes (wr : WritePort) : ∃ x : Bits, wr.bits = bitsOfBytes wr.bytes ++ x ∧ x.length < 8 := by
  obtain ⟨l, x, hb, hx⟩ := bits_split wr.bits
  have hl : wr.bytes = l := by rw [WritePort.bytes, hb, bytesOfBits_bitsOfBytes_append l hx]
  exact ⟨x, by rw [hl, hb], hx⟩

theorem WritePort.length_bytes (wr : WritePort) : wr.bytes.length = wr.bits.length / 8 := length_bytesOfBits wr.bits

/-- Settles O14: the attached bits are those of the bytes, and WR's bits begin with those of its bytes, so one mapping
serves both ports. -/
theorem streamByteOrder : Obligations.StreamByteOrder := by
  unfold Obligations.StreamByteOrder
  refine ⟨fun bytes => ⟨length_bitsOfBytes bytes, fun k hk => exists_byte_of_bitsOfBytes hk⟩, fun wr k hk => ?_⟩
  rw [← wr.length_bytes] at hk
  obtain ⟨x, hbits, -⟩ := wr.bits_eq_bytes
  obtain ⟨b, hbyte, hbit⟩ := exists_byte_of_bitsOfBytes hk
  refine ⟨b, hbyte, ?_⟩
  rw [hbits, List.getElem?_append_left (by simpa using hk), hbit]

/-! ### Reading -/

/-- At the end of the stream there is nothing to read (R55). -/
theorem ReadPort.readBits_at_end (b : Bits) {m : Nat} (hm : 0 < m) :
    (ReadPort.readBits m { bits := b, pos := b.length }).1 = none := by
  rw [ReadPort.readBits_of_short (by simpa [ReadPort.rest] using hm)]

/-- Settles O15: `readBits` answers the next bits or `END`, and how many bits are left tells which. -/
theorem readBitsSpec : Obligations.ReadBitsSpec := by
  unfold Obligations.ReadBitsSpec
  intro n rd hn
  have hlen : rd.rest.length = rd.bits.length - rd.pos := rd.length_rest
  constructor
  · intro hfits
    rcases rd.readBits_spec n hn with ⟨v, x, hrest, hread, -⟩ | ⟨hshort, -⟩
    · refine ⟨v, ?_, hread⟩
      rw [show rd.bits.drop rd.pos = bitsOf v ++ x from hrest, List.take_left' (length_bitsOf v)]
    · omega
  · intro hpast
    exact ⟨ReadPort.readBits_of_short (by omega), fun m hm => ReadPort.readBits_at_end rd.bits hm⟩

/-! ### The bytes the host sees -/

theorem drop_bitsOfBytes (l : List Byte) (j : Nat) : (bitsOfBytes l).drop (8 * j) = bitsOfBytes (l.drop j) := by
  induction j generalizing l with
  | zero => rfl
  | succ j ih =>
    cases l with
    | nil => simp
    | cons b l =>
      rw [bitsOfBytes_cons, Nat.mul_succ, Nat.add_comm, ← List.drop_drop, List.drop_left' (length_bitsOf b), ih,
        List.drop_succ_cons]

/-- Byte `j` of a stream is spelled by its bits `8j` to `8j + 7`, whatever follows the bytes (R54, R61). -/
theorem take_drop_bitsOfBytes_append {l : List Byte} {j : Nat} (hj : j < l.length) (x : Bits) :
    ((bitsOfBytes l ++ x).drop (8 * j)).take 8 = bitsOf l[j] := by
  have hle : 8 * j ≤ (bitsOfBytes l).length := by rw [length_bitsOfBytes]; omega
  rw [List.drop_append_of_le_length hle, drop_bitsOfBytes, List.drop_eq_getElem_cons hj, bitsOfBytes_cons,
    List.append_assoc, List.take_left' (length_bitsOf _)]

/-- Closing an open port leaves whole bytes, however many bits it held (R60). -/
theorem WritePort.length_close_of_open {wr : WritePort} (padBit : Bool) (h : wr.closed = false) :
    (wr.close padBit).bits.length % 8 = 0 := by
  rw [WritePort.close_of_open padBit h]
  exact length_padded padBit wr.bits

/-- Settles O16: WR's bits are its whole bytes and a partial one, which padding makes whole at the close. -/
theorem wholeBytesVisible : Obligations.WholeBytesVisible := by
  unfold Obligations.WholeBytesVisible
  refine ⟨fun wr => ⟨wr.length_bytes, fun j hj => ?_⟩, fun wr padBit hopen => ?_⟩
  · rw [← wr.length_bytes] at hj
    obtain ⟨x, hbits, -⟩ := wr.bits_eq_bytes
    refine ⟨wr.bytes[j], List.getElem?_eq_getElem hj, ?_⟩
    rw [hbits, take_drop_bitsOfBytes_append hj]
  · have hwhole := WritePort.length_close_of_open padBit hopen
    exact ⟨hwhole, bitsOfBytes_bytesOfBits hwhole⟩

/-! ### Who can touch a closed WR -/

/-- The gate leaves WR alone where the body it lets through does (R217). -/
theorem State.gate_wr {s : State} {body : State → State} (h : (body s).wr = s.wr) : (s.gate body).wr = s.wr := by
  cases herr : s.err with
  | true => rw [State.gate_of_err herr]
  | false => rw [State.gate_of_ok herr, h]

theorem fcount_wr (p : Params) (s : State) : (fcount p s).wr = s.wr := by
  obtain ⟨f, rd, h, -⟩ := fcount_cases p s
  simp [h]

theorem ctgen_wr (s : State) : (ctgen s).wr = s.wr := by
  rcases ctgen_cases s with ⟨-, -, table, h, -⟩ | ⟨e, h, -⟩ <;> simp [h]

theorem tdec_wr (s : State) : (tdec s).wr = s.wr := by
  rcases tdec_cases s with ⟨t, rd, h, -⟩ | ⟨e, rd, h, -⟩ <;> simp [h]

theorem cmagic_wr (p : Params) (s : State) : (cmagic p s).wr = s.wr := by
  obtain ⟨rd, e, h, -⟩ := cmagic_cases p s
  simp [h]

section
variable {s : State} (hc : s.wr.closed = true)
include hc

theorem tenc_wr_of_closed : (tenc s).wr = s.wr := by
  rcases tenc_cases s with ⟨hopen, -⟩ | h
  · simp [hc] at hopen
  · simp [h]

theorem penc_wr_of_closed : (penc s).wr = s.wr := by
  rcases penc_cases s with ⟨rd, more, e, -, -, -, hopen⟩ | h
  · simp [hc] at hopen
  · simp [h]

theorem pdec_wr_of_closed : (pdec s).wr = s.wr := by
  rcases pdec_cases s with ⟨cur, rd, more, e, -, -, -, hopen⟩ | h
  · simp [hc] at hopen
  · simp [h]

theorem wmagic_wr_of_closed (p : Params) : (wmagic p s).wr = s.wr := by
  rcases wmagic_cases p s with ⟨hopen, -⟩ | h
  · simp [hc] at hopen
  · simp [h]

theorem closeWr_wr_of_closed (p : Params) : (closeWr p s).wr = s.wr := WritePort.close_of_closed p.padBit hc

theorem compress_wr_of_closed (p : Params) : (compress p s).wr = s.wr := by simp [compress, hc]

theorem decompress_wr_of_closed (p : Params) : (decompress p s).wr = s.wr := by simp [decompress, hc]

/-- A closed WR is out of every command's reach (R59, R60, R219). -/
theorem exec_wr_of_closed (i : Instr) : ∃ t, exec i s = .next t ∧ t.wr = s.wr := by
  cases i with
  | nop => exact ⟨_, rfl, rfl⟩
  | fcount => exact ⟨_, rfl, State.gate_wr (fcount_wr params s)⟩
  | tbuild => exact ⟨_, rfl, State.gate_wr rfl⟩
  | ctgen => exact ⟨_, rfl, State.gate_wr (ctgen_wr s)⟩
  | tenc => exact ⟨_, rfl, State.gate_wr (tenc_wr_of_closed hc)⟩
  | tdec => exact ⟨_, rfl, State.gate_wr (tdec_wr s)⟩
  | penc => exact ⟨_, rfl, State.gate_wr (penc_wr_of_closed hc)⟩
  | pdec => exact ⟨_, rfl, State.gate_wr (pdec_wr_of_closed hc)⟩
  | wmagic => exact ⟨_, rfl, State.gate_wr (wmagic_wr_of_closed hc params)⟩
  | cmagic => exact ⟨_, rfl, State.gate_wr (cmagic_wr params s)⟩
  | rewind => exact ⟨_, rfl, State.gate_wr rfl⟩
  | close => exact ⟨_, rfl, closeWr_wr_of_closed hc params⟩
  | compress => exact ⟨_, rfl, State.gate_wr (compress_wr_of_closed hc params)⟩
  | decompress => exact ⟨_, rfl, State.gate_wr (decompress_wr_of_closed hc params)⟩
  | clear => exact ⟨_, rfl, s.cleared_wr⟩

end

/-- No host access but `attach WR` touches WR (R62, R63). -/
theorem State.hostAccess_wr (p : Params) (s : State) {a : HostAccess} (h : a ≠ .attachWr) :
    (s.hostAccess p a).wr = s.wr := by
  cases a with
  | attachRd bytes => exact s.setRd_wr _
  | attachWr => exact absurd rfl h
  | writeFreq i v => exact s.setFreq_wr _
  | writeStatus v => rfl
  | writeErrcode v => rfl
  | read e => exact s.setHost_wr _
  | reset => exact s.cleared_wr

/-- Settles O7: attaching is a port update by definition; the rest of the host's accesses leave WR alone, and so does
every command once WR is closed. -/
theorem attachGivesFreshPorts : Obligations.AttachGivesFreshPorts := by
  unfold Obligations.AttachGivesFreshPorts
  intro s
  refine ⟨fun _ => rfl, rfl, fun _ ha => s.hostAccess_wr params ha, fun i t hc ht => ?_⟩
  obtain ⟨u, hu, hwr⟩ := exec_wr_of_closed hc i
  rw [hu] at ht
  rw [← Host.Outcome.next.inj ht, hwr, hc]

end Sys2Proof.Machine
end

section
/-!
PROOFS of the encoding's family (spec/30_encoding.md section 1): which command words decode, and to which commands.
-/

namespace Sys2Proof.Machine

/-! ### The decoder -/

/-- The decoder reads each row of the table of R76 back. -/
@[simp] theorem decode_encode (i : Instr) : decode (encode i) = .ok i := by cases i <;> rfl

/-- The operation numbers of R76 are 0 to 14; every other is refused (R77). -/
theorem exists_decodeOperation_eq_ok_iff (op : Nat) : (∃ i, decodeOperation op = .ok i) ↔ op < 15 := by
  constructor
  · rintro ⟨i, h⟩
    by_contra hop
    obtain ⟨k, rfl⟩ := Nat.exists_eq_add_of_le (Nat.not_lt.mp hop)
    rw [Nat.add_comm] at h
    cases h
  · intro hop
    interval_cases op <;> exact ⟨_, rfl⟩

/-- A nibble is an operation number exactly when it is not 15. -/
theorem nibble_toNat_lt_fifteen_iff (n : BitVec 4) : n.toNat < 15 ↔ n ≠ 15#4 := by bv_omega

theorem decode_of_reservedBits_zero {w : Byte} (h : w.extractLsb' 4 4 = 0#4) :
    decode w = decodeOperation (w.extractLsb' 0 4).toNat := if_pos h

theorem decode_of_reservedBits_ne_zero {w : Byte} (h : w.extractLsb' 4 4 ≠ 0#4) :
    decode w = .error .reservedBits := if_neg h

/-- The words that are commands, by their two fields (R76, R77). -/
theorem exists_decode_eq_ok_iff (w : Byte) :
    (∃ i, decode w = .ok i) ↔ w.extractLsb' 4 4 = 0#4 ∧ w.extractLsb' 0 4 ≠ 15#4 := by
  by_cases h : w.extractLsb' 4 4 = 0#4
  · simp only [decode_of_reservedBits_zero h, exists_decodeOperation_eq_ok_iff, nibble_toNat_lt_fifteen_iff, h, true_and]
  · simp [decode_of_reservedBits_ne_zero h, h]

/-- Settles O1: the table's words are the encoder's, which the decoder reads back, and the words that decode at all are
told by the two fields. -/
theorem commandTableDecodes : Obligations.CommandTableDecodes := by
  unfold Obligations.CommandTableDecodes
  exact ⟨decode_encode .nop, decode_encode .fcount, decode_encode .tbuild, decode_encode .ctgen, decode_encode .tenc,
    decode_encode .tdec, decode_encode .penc, decode_encode .pdec, decode_encode .wmagic, decode_encode .cmagic,
    decode_encode .rewind, decode_encode .close, decode_encode .compress, decode_encode .decompress,
    decode_encode .clear, exists_decode_eq_ok_iff⟩

end Sys2Proof.Machine
end

section
/-!
PROOFS of the frequency counter's family (spec/40_frequency_counter.md R101 to R103): the table FCOUNT makes.
-/

namespace Sys2Proof.Machine

open Sys2Proof.Config

/-- FCOUNT's fuel, one round above the units left, is enough for its loop to reach the end of RD (R103). -/
theorem fcountLoop_freqZero (p : Params) (rd : ReadPort) :
    fcountLoop p (rd.remaining + 1) rd freqZero = ({ rd with pos := rd.bits.length }, countsOf p rd.units) := by
  obtain ⟨x, hrest, hx⟩ := rd.rest_eq_units
  have hfuel : rd.units.length < rd.remaining + 1 := by rw [rd.length_units]; omega
  rw [fcountLoop_eq p rd.units hx _ rd freqZero hrest hfuel, foldl_countUnit_zero]

/-- FCOUNT in closed form (R103). -/
theorem fcount_eq (p : Params) (s : State) :
    fcount p s = (s.setFreq (countsOf p s.rd.units)).setRd { s.rd with pos := s.rd.bits.length } := by
  simp only [fcount, fcountLoop_freqZero]

theorem exec_fcount (s : State) : exec .fcount s = .next (s.gate (fcount params)) := rfl

/-- Settles O18: with ERR clear the gate lets FCOUNT through, whose closed form writes FREQ and RD's position only. -/
theorem fcountCountsUnits : Obligations.FcountCountsUnits := by
  unfold Obligations.FcountCountsUnits
  intro s herr
  rw [exec_fcount, State.gate_of_ok herr, fcount_eq, State.setFreq, State.setRd]

end Sys2Proof.Machine
end

section
/-!
PROOFS of the tree builder's family (spec/41_tree_builder.md R110 to R113): the loop of R112 runs within the relation Huff
and ends on one tree, whatever the policy decides.
-/

namespace Sys2Proof.Machine

open Sys2Proof.Config

/-- The queue starts with the sentinel's leaf in it, since the sentinel's count is 1 (R26, R111). -/
theorem eos_leaf_mem_leafQueue (f : FreqTable) : HuffTree.leaf eos 1 ∈ leafQueue f := by
  have hentry : (freqTable f)[256]? = some 1 := by simp [freqTable]
  exact List.mem_filterMap.mpr ⟨(1, 256), List.mk_mem_zipIdx_iff_getElem?.mpr hentry, rfl⟩

theorem leafQueue_ne_nil (f : FreqTable) : leafQueue f ≠ [] := List.ne_nil_of_mem (eos_leaf_mem_leafQueue f)

/-- The loop stops at one node left (R112). -/
@[simp] theorem mergeAll_singleton (choice : Nat → TieChoice) (fuel k : Nat) (t : HuffTree) :
    mergeAll choice fuel k [t] = [t] := by cases fuel <;> rfl

theorem mergeAll_of_two_le_length (choice : Nat → TieChoice) (fuel k : Nat) {q : List HuffTree} (hq : 2 ≤ q.length) :
    mergeAll choice (fuel + 1) k q = mergeAll choice fuel (k + 1) (mergeOnce (choice k) q) :=
  if_neg (Nat.not_le.mpr hq)

/-- With enough fuel the loop of R112 merges a queue down to one tree, each round being a merge of R111. -/
theorem mergeAll_reaches_singleton (choice : Nat → TieChoice) (fuel k : Nat) {q : List HuffTree} (hne : q ≠ [])
    (hfuel : q.length ≤ fuel + 1) : ∃ t, mergeAll choice fuel k q = [t] ∧ Relation.ReflTransGen Merges q [t] := by
  induction fuel generalizing k q with
  | zero =>
    obtain ⟨t, rfl⟩ := List.length_eq_one_iff.mp (Nat.le_antisymm hfuel (List.length_pos_iff.mpr hne))
    exact ⟨t, rfl, .refl⟩
  | succ fuel ih =>
    have hpos : 0 < q.length := List.length_pos_iff.mpr hne
    rcases Nat.lt_or_ge q.length 2 with hone | htwo
    · obtain ⟨t, rfl⟩ := List.length_eq_one_iff.mp (show q.length = 1 by omega)
      exact ⟨t, mergeAll_singleton choice _ k t, .refl⟩
    · have hmerge : Merges q (mergeOnce (choice k) q) := mergeOnce_merges (choice k) htwo
      have hlen := hmerge.length
      obtain ⟨t, hrun, hreach⟩ := ih (k + 1) (q := mergeOnce (choice k) q) (List.ne_nil_of_length_pos (by omega)) (by omega)
      exact ⟨t, (mergeAll_of_two_le_length choice fuel k htwo).trans hrun, .head hmerge hreach⟩

/-- Whatever the policy decides, the tree built is one of those the greedy procedure can build (R111, R113). -/
theorem huff_buildTree (choice : Nat → TieChoice) (f : FreqTable) : Huff f (buildTree choice f) := by
  obtain ⟨t, hrun, hreach⟩ := mergeAll_reaches_singleton choice (leafQueue f).length 0 (leafQueue_ne_nil f) (Nat.le_succ _)
  have hbuild : buildTree choice f = t := by rw [buildTree, hrun, List.headD_cons]
  rw [hbuild]
  exact hreach

theorem exec_tbuild (s : State) : exec .tbuild s = .next (s.gate (tbuild params)) := rfl

/-- Settles O19: the tree is in Huff under any policy, and with ERR clear the gate lets TBUILD's one update through. -/
theorem tbuildBuildsHuffTree : Obligations.TbuildBuildsHuffTree := by
  unfold Obligations.TbuildBuildsHuffTree
  intro s herr
  refine ⟨huff_buildTree _ _, ?_⟩
  rw [exec_tbuild, State.gate_of_ok herr, tbuild, State.setTree, params]

end Sys2Proof.Machine
end

section
/-!
PROOFS of the code table generator's family (spec/42_code_table_generator.md R131 to R133): the one outcome CTGEN has in
each of its three cases.
-/

namespace Sys2Proof.Machine

/-- Without a tree CTGEN refuses before it looks at TREE (R131). -/
theorem ctgen_of_not_treeValid {s : State} (hv : s.treeValid = false) : ctgen s = s.raise .ctgen .sequence := by
  simp [ctgen, hv]

/-- CTGEN refuses a tree that is not well formed before it writes an entry (R131, R133). -/
theorem ctgen_of_not_wellFormed {s : State} (hv : s.treeValid = true) (hw : s.tree.wellFormed = false) :
    ctgen s = s.raise .ctgen .illFormedTree := by
  simp [ctgen, hv, hw]

/-- On a usable tree CTGEN stores the table of its walk (R131). -/
theorem ctgen_of_wellFormed {s : State} (hv : s.treeValid = true) (hw : s.tree.wellFormed = true) :
    ctgen s = s.setCode (codeWalk s.tree [] codeAbsent) := by
  simp [ctgen, hv, hw]

theorem exec_ctgen (s : State) : exec .ctgen s = .next (s.gate ctgen) := rfl

/-- With ERR clear the gate lets CTGEN through (R217). -/
theorem exec_ctgen_of_ok {s : State} (herr : s.err = false) : exec .ctgen s = .next (ctgen s) := by
  rw [exec_ctgen, State.gate_of_ok herr]

/-- Settles O20: the walk's table is the code table of a tree without repeated symbols, and each refusal is an error
entry, which besides ERR and ERRCODE writes CODE_VALID only (R216). -/
theorem ctgenWritesPaths : Obligations.CtgenWritesPaths := by
  unfold Obligations.CtgenWritesPaths
  intro s herr
  rw [exec_ctgen_of_ok herr]
  refine ⟨fun hv hw => ?_, fun hv => ?_, fun hv hw => ?_⟩
  · have hnodup : s.tree.leaves.Nodup := (s.tree.wellFormed_iff.mp hw).2
    refine ⟨codeWalk s.tree [] codeAbsent, ?_, codeWalk_isCodeTableOf hnodup⟩
    rw [ctgen_of_wellFormed hv hw, State.setCode]
  · rw [ctgen_of_not_treeValid hv, State.raise_ctgen, Error.code]
  · rw [ctgen_of_not_wellFormed hv hw, State.raise_ctgen, Error.code]

end Sys2Proof.Machine
end

section
/-!
PROOFS of the tree codec's family (spec/43_tree_codec.md R141, R150 to R154): what TENC appends or refuses, and the three
ends of TDEC in terms of Deser and of the preorder count.
-/

namespace Sys2Proof.Machine

/-! ### TENC -/

/-- TENC refuses before anything is written (R141). -/
theorem tenc_of_refused {s : State} (h : s.treeValid = false ∨ s.wr.closed = true) : tenc s = s.raise .other .sequence := by
  rcases h with hv | hc
  · simp [tenc, hv]
  · simp [tenc, hc]

/-- TENC in closed form (R142). -/
theorem tenc_of_open {s : State} (hv : s.treeValid = true) (hc : s.wr.closed = false) :
    tenc s = s.setWr (s.wr.writeSeq (ser s.tree)) := by
  simp [tenc, hv, hc, emitTree_eq]

theorem exec_tenc (s : State) : exec .tenc s = .next (s.gate tenc) := rfl

/-- Settles O21: the walk of R141 appends Ser(TREE), and a refusal is an error entry, which writes ERR and ERRCODE only. -/
theorem tencAppendsHeader : Obligations.TencAppendsHeader := by
  unfold Obligations.TencAppendsHeader
  intro s herr
  rw [exec_tenc, State.gate_of_ok herr]
  refine ⟨fun hv hc => ?_, fun h => ?_⟩
  · rw [tenc_of_open hv hc, State.setWr, WritePort.writeSeq]
  · rw [tenc_of_refused h, State.raise_other, Error.code]

/-! ### Deser -/

theorem deserDepth_leaf (fuel : Nat) (v : Symbol) (x : Bits) :
    deserDepth (fuel + 1) (true :: (bitsOf v ++ x)) = some (.leaf v 0, x) := by
  simp [deserDepth]

/-- Each node of a header holds a bit of it, so its length is fuel enough (R83). -/
theorem deserDepth_ser_append (t : HuffTree) {fuel : Nat} (x : Bits) (hfuel : (ser t).length ≤ fuel) :
    deserDepth fuel (ser t ++ x) = some (t.unweighted, x) := by
  induction t generalizing fuel x with
  | leaf v w =>
    obtain ⟨k, rfl⟩ : ∃ k, fuel = k + 1 := ⟨fuel - 1, by simp [ser] at hfuel; omega⟩
    exact deserDepth_leaf k v x
  | node w l r ihl ihr =>
    simp only [ser, List.length_cons, List.length_append] at hfuel
    obtain ⟨k, rfl⟩ : ∃ k, fuel = k + 1 := ⟨fuel - 1, by omega⟩
    rw [ser, List.cons_append, List.append_assoc]
    simp only [deserDepth, ihl (ser r ++ x) (by omega : (ser l).length ≤ k), ihr x (by omega : (ser r).length ≤ k),
      HuffTree.unweighted]

/-- Deser reads a header back, up to the weights, and leaves what follows it (R84). -/
theorem deser_ser_append (t : HuffTree) (x : Bits) : deser (ser t ++ x) = some (t.unweighted, x) :=
  deserDepth_ser_append t x (by simp)

theorem ser_append_of_deserDepth {fuel : Nat} {b rest : Bits} {t : HuffTree} (h : deserDepth fuel b = some (t, rest)) :
    ser t ++ rest = b := by
  induction fuel generalizing b rest t with
  | zero => simp [deserDepth] at h
  | succ fuel ih =>
    match b with
    | [] => simp [deserDepth] at h
    | true :: b =>
      simp only [deserDepth, Option.ite_none_left_eq_some, Option.some.injEq, Prod.mk.injEq] at h
      obtain ⟨hlen, rfl, rfl⟩ := h
      have htake : (b.take 9).length = 9 := by simp; omega
      rw [ser, bitsOf_valOf htake, List.cons_append, List.take_append_drop]
    | false :: b =>
      cases hl : deserDepth fuel b with
      | none => simp [deserDepth, hl] at h
      | some left =>
        obtain ⟨l, b2⟩ := left
        cases hr : deserDepth fuel b2 with
        | none => simp [deserDepth, hl, hr] at h
        | some right =>
          obtain ⟨r, b3⟩ := right
          simp only [deserDepth, hl, hr, Option.some.injEq, Prod.mk.injEq] at h
          obtain ⟨rfl, rfl⟩ := h
          rw [ser, List.cons_append, List.append_assoc, ih hr, ih hl]

/-- What Deser consumed is the header of the tree it answers (R84). -/
theorem ser_append_of_deser {b rest : Bits} {t : HuffTree} (h : deser b = some (t, rest)) : ser t ++ rest = b :=
  ser_append_of_deserDepth h

/-! ### The preorder count -/

/-- A parse that wants no subtree is finished (R154). -/
@[simp] theorem preorderRead_finished (n : Nat) (b : Bits) : preorderRead n 0 b = some (0, b) := by cases n <;> rfl

/-- Reading a header's nodes in preorder satisfies one wanted subtree. -/
theorem preorderRead_ser_append (t : HuffTree) (n wanted : Nat) (x : Bits) :
    preorderRead (t.nodes + n) (wanted + 1) (ser t ++ x) = preorderRead n wanted x := by
  induction t generalizing n wanted x with
  | leaf v w =>
    rw [HuffTree.nodes, Nat.add_comm 1 n]
    simp [ser, preorderRead]
  | node w l r ihl ihr =>
    have hnodes : (HuffTree.node w l r).nodes + n = l.nodes + (r.nodes + n) + 1 := by simp only [HuffTree.nodes]; omega
    rw [hnodes, ser, List.cons_append, List.append_assoc, preorderRead, ihl, ihr]

/-- Where a tree of at most `n` nodes is parsed, the first `n` nodes of the preorder parse finish it (R154). -/
theorem preorderRead_of_deser {b rest : Bits} {t : HuffTree} {n : Nat} (h : deser b = some (t, rest)) (hn : t.nodes ≤ n) :
    preorderRead n 1 b = some (0, rest) := by
  obtain ⟨k, rfl⟩ := Nat.exists_eq_add_of_le hn
  rw [← ser_append_of_deser h, preorderRead_ser_append, preorderRead_finished]

/-! ### TDEC -/

/-- RD once `rest` is what is left of its stream. -/
def ReadPort.leaving (rd : ReadPort) (rest : Bits) : ReadPort := { rd with pos := rd.bits.length - rest.length }

theorem ReadPort.pos_add_length_rest {rd : ReadPort} (h : rd.rest ≠ []) : rd.pos + rd.rest.length = rd.bits.length := by
  have hpos : 0 < rd.rest.length := List.length_pos_iff.mpr h
  have hlen : rd.rest.length = rd.bits.length - rd.pos := rd.length_rest
  omega

/-- A port moved over some of the bits left is known by the bits it leaves. -/
theorem ReadPort.eq_leaving {rd rd' : ReadPort} (hrest : rd.rest ≠ []) (hbits : rd'.bits = rd.bits)
    (hpos : rd'.pos + rd'.rest.length = rd.pos + rd.rest.length) : rd' = rd.leaving rd'.rest := by
  have hend := ReadPort.pos_add_length_rest hrest
  have hpos' : rd'.pos = rd.bits.length - rd'.rest.length := by omega
  obtain ⟨bits', pos'⟩ := rd'
  simp only at hbits hpos'
  subst hbits
  rw [ReadPort.leaving, ← hpos']

/-- The three ends of TDEC, each with the parse that leads to it (R154). -/
theorem tdec_spec (s : State) :
    (∃ t rest, deser s.rd.rest = some (t, rest) ∧ t.nodes ≤ nodeCap ∧
      tdec s = (s.setRd (s.rd.leaving rest)).setTree .tdec t) ∨
    (∃ wanted rest, preorderRead nodeCap 1 s.rd.rest = some (wanted + 1, rest) ∧
      tdec s = (s.setRd (s.rd.leaving rest)).raise .tdec .capacity) ∨
    (preorderRead nodeCap 1 s.rd.rest = none ∧
      tdec s = (s.setRd { s.rd with pos := s.rd.bits.length }).raise .tdec .truncatedHeader) := by
  have hexplains := readTree_explains nodeCap 0 s.rd (Nat.zero_le _) (Nat.le_refl _)
  rw [tdec]
  cases hrun : readTree nodeCap 0 s.rd with
  | mk result count rd =>
    rw [hrun] at hexplains
    obtain ⟨hbits, hend⟩ := hexplains
    cases result with
    | ok t =>
      obtain ⟨hunweighted, hcount, hcap, hpos, hrest, -⟩ := hend
      simp only at hbits hcount hcap hpos hrest
      have hne : s.rd.rest ≠ [] := by rw [hrest]; cases t <;> simp [ser]
      have hmoved : rd.pos + rd.rest.length = s.rd.pos + s.rd.rest.length := by rw [hrest, hpos]; simp; omega
      refine Or.inl ⟨t, rd.rest, ?_, by omega, ?_⟩
      · rw [hrest, deser_ser_append, hunweighted]
      · rw [← ReadPort.eq_leaving hne hbits hmoved]
    | error e =>
      rcases hend with ⟨rfl, hmoved, hcapacity⟩ | ⟨rfl, hpos, htruncated⟩
      · obtain ⟨more, hread⟩ := hcapacity 0
        rw [Nat.zero_add more] at hread
        have hne : s.rd.rest ≠ [] := fun hnil => by rw [hnil] at hread; cases hread
        refine Or.inr (Or.inl ⟨more, rd.rest, hread, ?_⟩)
        rw [← ReadPort.eq_leaving hne hbits hmoved]
      · refine Or.inr (Or.inr ⟨htruncated 0, ?_⟩)
        obtain ⟨bits', pos'⟩ := rd
        simp only at hbits hpos
        rw [hbits, hpos]

theorem exec_tdec (s : State) : exec .tdec s = .next (s.gate tdec) := rfl

/-- With ERR clear the gate lets TDEC through (R217). -/
theorem exec_tdec_of_ok {s : State} (herr : s.err = false) : exec .tdec s = .next (tdec s) := by
  rw [exec_tdec, State.gate_of_ok herr]

section
variable {s : State} {t : HuffTree} {wanted : Nat} {rest : Bits}

theorem tdec_of_deser (h : deser s.rd.rest = some (t, rest)) (hn : t.nodes ≤ nodeCap) :
    tdec s = (s.setRd (s.rd.leaving rest)).setTree .tdec t := by
  have hread := preorderRead_of_deser h hn
  rcases tdec_spec s with ⟨t', rest', h', -, heq⟩ | ⟨wanted, rest', h', -⟩ | ⟨h', -⟩
  · rw [h] at h'
    cases h'
    exact heq
  · rw [hread] at h'
    cases h'
  · rw [hread] at h'
    cases h'

theorem tdec_of_capacity (h : preorderRead nodeCap 1 s.rd.rest = some (wanted + 1, rest)) :
    tdec s = (s.setRd (s.rd.leaving rest)).raise .tdec .capacity := by
  rcases tdec_spec s with ⟨t', rest', h', hn, -⟩ | ⟨wanted', rest', h', heq⟩ | ⟨h', -⟩
  · rw [preorderRead_of_deser h' hn] at h
    cases h
  · rw [h] at h'
    cases h'
    exact heq
  · rw [h] at h'
    cases h'

theorem tdec_of_truncated (h : preorderRead nodeCap 1 s.rd.rest = none) :
    tdec s = (s.setRd { s.rd with pos := s.rd.bits.length }).raise .tdec .truncatedHeader := by
  rcases tdec_spec s with ⟨t', rest', h', hn, -⟩ | ⟨wanted', rest', h', -⟩ | ⟨-, heq⟩
  · rw [preorderRead_of_deser h' hn] at h
    cases h
  · rw [h] at h'
    cases h'
  · exact heq

end

/-- Settles O22: the parse decides which of its three ends TDEC has, and one of the three parses is always the case. -/
theorem tdecReadsHeader : Obligations.TdecReadsHeader := by
  unfold Obligations.TdecReadsHeader
  intro s herr
  rw [exec_tdec_of_ok herr]
  refine ⟨fun t rest h hn => ?_, fun wanted rest h => ?_, fun h => ?_, ?_⟩
  · rw [tdec_of_deser h hn, State.setTree, State.setRd, ReadPort.leaving]
  · rw [tdec_of_capacity h, State.raise_tdec, State.setRd, ReadPort.leaving, Error.code]
  · rw [tdec_of_truncated h, State.raise_tdec, State.setRd, Error.code]
  · rcases tdec_spec s with ⟨t, rest, h, hn, -⟩ | ⟨wanted, rest, h, -⟩ | ⟨h, -⟩
    · exact Or.inl ⟨t, rest, h, hn⟩
    · exact Or.inr (Or.inl ⟨wanted, rest, h⟩)
    · exact Or.inr (Or.inr h)

end Sys2Proof.Machine
end

section
/-!
PROOFS of the payload transducers' family (spec/44_payload_transducers.md R161, R164): the three ends of PENC's loop over the
units left in RD, and its refusals.
-/

namespace Sys2Proof.Machine

/-! ### The loop of PENC over the stream -/

theorem bitsOfBytes_append (a b : List Byte) : bitsOfBytes (a ++ b) = bitsOfBytes a ++ bitsOfBytes b := List.flatMap_append

/-- PENC's fuel, one round above the bits left, pays for every unit left and at least one round more. -/
theorem ReadPort.exists_fuel_past_units (rd : ReadPort) : ∃ fuel, rd.remaining + 1 = rd.units.length + (fuel + 1) :=
  ⟨rd.remaining - rd.units.length, by rw [rd.length_units]; omega⟩

section
variable {code : CodeTable} {rd : ReadPort} (wr : WritePort)

/-- Where every unit left has a code, the loop reaches the end of RD, and the sentinel decides the error (R161, R164). -/
theorem pencLoop_of_coded (hall : ∀ u ∈ rd.units, (codeAt code (symbolOf u)).isSome) :
    pencLoop code (rd.remaining + 1) rd wr =
      ⟨{ rd with pos := rd.bits.length }, wr.writeSeq (unitCodes code rd.units ++ (codeAt code eos).getD []),
        if (codeAt code eos).isSome then none else some .noCode⟩ := by
  obtain ⟨fuel, hfuel⟩ := rd.exists_fuel_past_units
  obtain ⟨x, hrest, hx⟩ := rd.rest_eq_units
  obtain ⟨hloop, hend⟩ := pencLoop_units code rd.units (fuel + 1) rd wr hrest hall
  rw [hfuel, hloop, pencLoop_end code fuel _ (by rw [hend]; exact hx)]
  cases codeAt code eos with
  | none => simp
  | some c => simp [WritePort.writeSeq_writeSeq]

/-- The loop stops just after the first unit left that has no code (R164). -/
theorem pencLoop_of_missing {before after : List Byte} {u : Byte} (hunits : rd.units = before ++ u :: after)
    (hall : ∀ v ∈ before, (codeAt code (symbolOf v)).isSome) (hu : codeAt code (symbolOf u) = none) :
    pencLoop code (rd.remaining + 1) rd wr =
      ⟨{ rd with pos := rd.pos + 8 * (before.length + 1) }, wr.writeSeq (unitCodes code before), some .noCode⟩ := by
  obtain ⟨fuel, hfuel⟩ := rd.exists_fuel_past_units
  obtain ⟨x, hrest, -⟩ := rd.rest_eq_units
  rw [hunits, bitsOfBytes_append, List.append_assoc] at hrest
  have hfuel' : rd.remaining + 1 = before.length + (after.length + fuel + 1 + 1) := by
    rw [hfuel, hunits, List.length_append, List.length_cons]
    omega
  obtain ⟨hloop, hat⟩ := pencLoop_units code before (after.length + fuel + 1 + 1) rd wr hrest hall
  rw [hfuel', hloop, pencLoop_missing code _ _ hat hu, Nat.mul_succ, Nat.add_assoc]

end

/-! ### PENC -/

section
variable {s : State}

/-- PENC refuses before anything is read or written (R161, R219). -/
theorem penc_of_refused (h : s.codeValid = false ∨ s.wr.closed = true) : penc s = s.raise .other .sequence := by
  rcases h with hv | hc
  · simp [penc, hv]
  · simp [penc, hc]

/-- With a table and WR open PENC is its loop (R161). -/
theorem penc_of_open (hv : s.codeValid = true) (hc : s.wr.closed = false) {rd : ReadPort} {wr : WritePort}
    {e : Option Error} (hrun : pencLoop s.code (s.rd.remaining + 1) s.rd s.wr = ⟨rd, wr, e⟩) :
    penc s = ((s.setRd rd).setWr wr).endWith .other e := by
  simp [penc, hv, hc, hrun]

end

theorem exec_penc (s : State) : exec .penc s = .next (s.gate penc) := rfl

/-- Settles O23: the loop has three ends, told apart by which of the units left and the sentinel have codes; an error is an
entry that writes ERR and ERRCODE only. -/
theorem pencEncodesUnits : Obligations.PencEncodesUnits := by
  unfold Obligations.PencEncodesUnits
  intro s herr
  rw [exec_penc, State.gate_of_ok herr]
  refine ⟨fun hv hc => ⟨fun c hall heos => ?_, fun hall heos => ?_, fun before after u hunits hall hu => ?_⟩, fun h => ?_⟩
  · rw [penc_of_open hv hc (pencLoop_of_coded s.wr hall), heos, Option.getD_some, Option.isSome_some, if_pos rfl,
      State.endWith_none, State.setWr, State.setRd, WritePort.writeSeq, List.append_assoc]
  · rw [penc_of_open hv hc (pencLoop_of_coded s.wr hall), heos, Option.getD_none, List.append_nil, Option.isSome_none,
      if_neg Bool.false_ne_true, State.endWith_some, State.raise_other, State.setWr, State.setRd, WritePort.writeSeq,
      Error.code]
  · rw [penc_of_open hv hc (pencLoop_of_missing s.wr hunits hall hu), State.endWith_some, State.raise_other, State.setWr,
      State.setRd, WritePort.writeSeq, Error.code]
  · rw [penc_of_refused h, State.raise_other, Error.code]

end Sys2Proof.Machine
end

section
/-!
PROOFS of the port commands of the sequencer's family (spec/45_sequencer_and_port_ops.md R186 to R191): what NOP, WMAGIC,
CMAGIC, REWIND and CLOSE do to the two ports.
-/

namespace Sys2Proof.Machine

open Sys2Proof.Config

/-! ### NOP -/

/-- Settles O17: NOP's meaning has no gate and no body. -/
theorem nopChangesNothing : Obligations.NopChangesNothing := fun _ => rfl

/-! ### WMAGIC -/

theorem wmagic_of_open {p : Params} {s : State} (hc : s.wr.closed = false) :
    wmagic p s = s.setWr (s.wr.writeSeq (bitsOf p.magic)) := by
  simp [wmagic, hc, WritePort.writeBits_eq]

theorem wmagic_of_closed {p : Params} {s : State} (hc : s.wr.closed = true) : wmagic p s = s.raise .other .sequence := by
  simp [wmagic, hc]

theorem exec_wmagic (s : State) : exec .wmagic s = .next (s.gate (wmagic params)) := rfl

/-- Settles O27: with ERR clear the gate lets WMAGIC through, and WR's state decides between the write and the refusal. -/
theorem wmagicWritesMagic : Obligations.WmagicWritesMagic := by
  unfold Obligations.WmagicWritesMagic
  intro s herr
  rw [exec_wmagic, State.gate_of_ok herr]
  refine ⟨fun hc => ?_, fun hc => ?_⟩
  · rw [wmagic_of_open hc, State.setWr, WritePort.writeSeq, params]
  · rw [wmagic_of_closed hc, State.raise_other, Error.code]

/-! ### CMAGIC -/

/-- CMAGIC where 32 bits are left: they are consumed, and compared as one value (R188). -/
theorem cmagic_of_rest {p : Params} {s : State} {v : BitVec 32} {x : Bits} (h : s.rd.rest = bitsOf v ++ x) :
    cmagic p s =
      (s.setRd { s.rd with pos := s.rd.pos + 32 }).endWith .other (if v = p.magic then none else some .format) := by
  obtain ⟨hread, -⟩ := ReadPort.readBits_of_rest (by decide) h
  by_cases hv : v = p.magic <;> simp [cmagic, hread, hv]

/-- CMAGIC where fewer are left: they are consumed, and `END` equals no value (R188). -/
theorem cmagic_of_short {p : Params} {s : State} (h : s.rd.rest.length < 32) :
    cmagic p s = (s.setRd { s.rd with pos := s.rd.bits.length }).raise .other .format := by
  simp only [cmagic, ReadPort.readBits_of_short h]

theorem exec_cmagic (s : State) : exec .cmagic s = .next (s.gate (cmagic params)) := rfl

/-- With ERR clear the gate lets CMAGIC through (R217). -/
theorem exec_cmagic_of_ok {s : State} (herr : s.err = false) : exec .cmagic s = .next (cmagic params s) := by
  rw [exec_cmagic, State.gate_of_ok herr]

/-- Settles O28: the 32 bits read are equal to MAGIC's exactly when their value is MAGIC, and `END` is no value. -/
theorem cmagicChecksMagic : Obligations.CmagicChecksMagic := by
  unfold Obligations.CmagicChecksMagic
  intro s herr
  rw [exec_cmagic_of_ok herr]
  refine ⟨fun x h => ?_, fun v x h hv => ?_, fun h => ?_⟩
  · rw [cmagic_of_rest h, if_pos (show magic = params.magic from rfl), State.endWith_none, State.setRd]
  · rw [cmagic_of_rest h, if_neg (show v ≠ params.magic from hv), State.endWith_some, State.raise_other, State.setRd,
      Error.code]
  · rw [cmagic_of_short h, State.raise_other, State.setRd, Error.code]

/-! ### REWIND -/

theorem exec_rewind (s : State) : exec .rewind s = .next (s.gate rewind) := rfl

/-- With ERR clear the gate lets REWIND through (R217). -/
theorem exec_rewind_of_ok {s : State} (herr : s.err = false) : exec .rewind s = .next (rewind s) := by
  rw [exec_rewind, State.gate_of_ok herr]

/-- Settles O29: with ERR clear the gate lets through REWIND's one update of RD. -/
theorem rewindReplaysStream : Obligations.RewindReplaysStream := by
  unfold Obligations.RewindReplaysStream
  intro s herr
  rw [exec_rewind_of_ok herr, rewind, ReadPort.rewound, State.setRd]

/-! ### CLOSE -/

theorem exec_close (s : State) : exec .close s = .next (closeWr params s) := rfl

theorem closeWr_of_closed {p : Params} {s : State} (hc : s.wr.closed = true) : closeWr p s = s := by
  rw [closeWr, WritePort.close_of_closed _ hc, State.setWr]

/-- Settles O30: CLOSE is let through in any state, and is the closing of the port alone. -/
theorem closePadsAndCloses : Obligations.ClosePadsAndCloses := by
  unfold Obligations.ClosePadsAndCloses
  intro s
  rw [exec_close]
  refine ⟨fun hc => ?_, fun hc => ?_⟩
  · rw [closeWr, WritePort.close_of_open _ hc, State.setWr, padded, params]
  · rw [closeWr_of_closed hc]

end Sys2Proof.Machine
end

section
/-!
PROOFS of DECOMPRESS (spec/45_sequencer_and_port_ops.md R199): its three steps under the gate, and what a run without
error leaves.
-/

namespace Sys2Proof.Machine

open Sys2Proof.Config

/-- A step that ended without an error was not skipped (R217). -/
theorem State.err_of_gate {s : State} {body : State → State} (h : (s.gate body).err = false) : s.err = false := by
  cases herr : s.err with
  | false => rfl
  | true => rw [State.gate_of_err herr, herr] at h; exact h

/-- A TDEC that raises nothing stores a tree of weights 0, and no code table is valid after it (R150). -/
theorem tdec_ok {s : State} (h : (tdec s).err = false) :
    (tdec s).treeValid = true ∧ (tdec s).treeSrc = .tdec ∧ (tdec s).codeValid = false ∧
      (tdec s).tree.unweighted = (tdec s).tree := by
  rcases tdec_cases s with ⟨t, rd, heq, hunweighted, -⟩ | ⟨e, rd, heq, -⟩
  · simp [heq, hunweighted]
  · simp [heq] at h

/-- PDEC reads TREE and writes none of it, whether or not it raises (R171, R216). -/
theorem pdec_keeps_tree (s : State) :
    (pdec s).treeValid = s.treeValid ∧ (pdec s).treeSrc = s.treeSrc ∧ (pdec s).codeValid = s.codeValid ∧
      (pdec s).tree = s.tree := by
  rcases pdec_cases s with ⟨cur, rd, more, e, heq, -⟩ | heq
  · simp [heq]
  · simp [heq]

/-- A run of DECOMPRESS's steps without an error leaves the tree of its header (R199). -/
theorem decompressSteps_ok {p : Params} {s : State} (h : (decompressSteps p s).err = false) :
    (decompressSteps p s).treeValid = true ∧ (decompressSteps p s).treeSrc = .tdec ∧
      (decompressSteps p s).codeValid = false ∧ (decompressSteps p s).tree.unweighted = (decompressSteps p s).tree := by
  have htdec : ((cmagic p s).gate tdec).err = false := State.err_of_gate h
  have hcmagic : (cmagic p s).err = false := State.err_of_gate htdec
  rw [State.gate_of_ok hcmagic] at htdec
  rw [decompressSteps, State.gate_of_ok hcmagic, State.gate_of_ok htdec]
  obtain ⟨hvalid, hsrc, hcode, htree⟩ := pdec_keeps_tree (tdec (cmagic p s))
  rw [hvalid, hsrc, hcode, htree]
  exact tdec_ok htdec

theorem exec_pdec (s : State) : exec .pdec s = .next (s.gate pdec) := rfl

theorem exec_decompress (s : State) : exec .decompress s = .next (s.gate (decompress params)) := rfl

theorem decompress_of_open {p : Params} {s : State} (hc : s.wr.closed = false) :
    decompress p s = closeWr p (decompressSteps p s) := by
  simp [decompress, hc]

theorem decompress_of_closed {p : Params} {s : State} (hc : s.wr.closed = true) :
    decompress p s = s.raise .other .sequence := by
  simp [decompress, hc]

/-- Settles O34: a step after one that raised is skipped by its gate, and the closing of WR, which has none, is not. -/
theorem decompressIsScript : Obligations.DecompressIsScript := by
  unfold Obligations.DecompressIsScript
  intro s herr
  rw [exec_decompress, State.gate_of_ok herr]
  refine ⟨fun hc => ?_, fun hc => ?_⟩
  · rw [decompress_of_open hc]
    refine ⟨cmagic params s, tdec (cmagic params s), decompressSteps params s, _, exec_cmagic_of_ok herr, fun hraised => ?_,
      fun hok => ⟨exec_tdec_of_ok hok, fun hraised => ?_, fun htdec => ?_⟩, exec_close _, rfl,
      WritePort.close_closed _ _, decompressSteps_ok⟩
    · rw [decompressSteps, State.gate_of_err hraised, State.gate_of_err hraised]
    · rw [decompressSteps, State.gate_of_ok hok, State.gate_of_err hraised]
    · rw [decompressSteps, State.gate_of_ok hok, exec_pdec]
  · rw [decompress_of_closed hc, State.raise_other, Error.code]

end Sys2Proof.Machine
end

section
/-!
PROOFS of COMPRESS (spec/45_sequencer_and_port_ops.md R197): the leaves of a tree that TBUILD makes (spec/41_tree_builder.md
R116), so that CTGEN accepts it and PENC finds a code for every unit counted (spec/44_payload_transducers.md R165), and
the nine steps in order.
-/

namespace Sys2Proof.Machine

open Sys2Proof.Config

/-! ### The leaves of a built tree -/

theorem perm_cons_eraseIdx {q : List HuffTree} {i : Nat} {a : HuffTree} (h : q[i]? = some a) : (a :: q.eraseIdx i).Perm q := by
  obtain ⟨hi, rfl⟩ := List.getElem?_eq_some_iff.mp h
  exact List.getElem_cons_eraseIdx_perm hi

/-- A merge moves leaves and neither adds nor drops one (R111). -/
theorem Merges.leaves_perm {q q' : List HuffTree} (h : Merges q q') :
    (q'.flatMap HuffTree.leaves).Perm (q.flatMap HuffTree.leaves) := by
  obtain ⟨i, j, a, b, ha, -, hb, -, hq'⟩ := h
  have hparts : (a :: b :: (q.eraseIdx i).eraseIdx j).Perm q :=
    ((perm_cons_eraseIdx hb).cons a).trans (perm_cons_eraseIdx ha)
  refine List.Perm.trans ?_ (hparts.flatMap_right HuffTree.leaves)
  rw [List.perm_iff_count]
  intro x
  rcases hq' with rfl | rfl <;> simp [HuffTree.leaves] <;> omega

theorem zipIdx_freqTable (f : FreqTable) : (freqTable f).zipIdx = (List.range 257).map fun k => (freqAt f k, k) := by
  refine List.ext_getElem (by simp [freqTable]) fun k hk _ => ?_
  have hk' : k < (freqTable f).length := by simpa using hk
  simp [freqAt, hk']

/-- The queue's leaves are the symbols of nonzero count (R111). -/
theorem flatMap_leaves_leafQueue (f : FreqTable) : (leafQueue f).flatMap HuffTree.leaves = presentSymbols f := by
  rw [leafQueue, presentSymbols, zipIdx_freqTable, List.filterMap_map]
  induction List.range 257 with
  | nil => rfl
  | cons k l ih => by_cases hk : 0 < freqAt f k <;> simpa [hk, HuffTree.leaves] using ih

/-- R116 (a): the leaves of a tree in Huff are the symbols of nonzero count. -/
theorem Huff.leaves_perm {f : FreqTable} {t : HuffTree} (h : Huff f t) : t.leaves.Perm (presentSymbols f) := by
  have hkeeps : ∀ q, Relation.ReflTransGen Merges (leafQueue f) q →
      (q.flatMap HuffTree.leaves).Perm (presentSymbols f) := by
    intro q hq
    induction hq with
    | refl => rw [flatMap_leaves_leafQueue]
    | tail _ hmerge ih => exact hmerge.leaves_perm.trans ih
  simpa using hkeeps [t] h

theorem mem_presentSymbols (f : FreqTable) (x : Symbol) : x ∈ presentSymbols f ↔ x ≤ eos ∧ 0 < freqAt f x.toNat := by
  simp only [presentSymbols, List.mem_map, List.mem_filter, List.mem_range, decide_eq_true_eq]
  constructor
  · rintro ⟨k, ⟨hk, hpos⟩, rfl⟩
    have hnat : (BitVec.ofNat 9 k).toNat = k := Nat.mod_eq_of_lt (by omega)
    rw [BitVec.le_def, hnat]
    exact ⟨Nat.le_of_lt_succ hk, hpos⟩
  · rintro ⟨hle, hpos⟩
    exact ⟨x.toNat, ⟨toNat_lt_of_le_eos hle, hpos⟩, by simp⟩

theorem presentSymbols_nodup (f : FreqTable) : (presentSymbols f).Nodup := by
  refine (List.nodup_range.filter _).map_on fun a ha b hb hab => ?_
  have ha' : a < 257 := List.mem_range.mp (List.mem_filter.mp ha).1
  have hb' : b < 257 := List.mem_range.mp (List.mem_filter.mp hb).1
  have hnat := congrArg BitVec.toNat hab
  simp only [BitVec.toNat_ofNat] at hnat
  omega

theorem Huff.mem_leaves {f : FreqTable} {t : HuffTree} (h : Huff f t) (x : Symbol) :
    x ∈ t.leaves ↔ x ≤ eos ∧ 0 < freqAt f x.toNat := by
  rw [h.leaves_perm.mem_iff, mem_presentSymbols]

/-- R116 (b): the sentinel has a leaf in every tree in Huff. -/
theorem Huff.eos_mem_leaves {f : FreqTable} {t : HuffTree} (h : Huff f t) : eos ∈ t.leaves :=
  (h.mem_leaves eos).mpr ⟨BitVec.le_refl eos, Nat.lt_of_lt_of_eq Nat.one_pos (freqAt_eos f).symm⟩

/-- R116: a tree in Huff is one that CTGEN accepts. -/
theorem Huff.wellFormed {f : FreqTable} {t : HuffTree} (h : Huff f t) : t.wellFormed = true :=
  t.wellFormed_iff.mpr ⟨fun x hx => ((h.mem_leaves x).mp hx).1, h.leaves_perm.nodup_iff.mpr (presentSymbols_nodup f)⟩

/-! ### The units counted are in the tree -/

/-- A unit that occurs has a nonzero count, saturated or not, since the largest count is at least 1 (R102, R103). -/
theorem freqAt_countsOf_pos (p : Params) {us : List Byte} {u : Byte} (hu : u ∈ us) : 0 < freqAt (countsOf p us) u.toNat := by
  have hmax : 2 ^ 1 ≤ 2 ^ p.countW := Nat.pow_le_pow_right (by decide) (Nat.le_add_left 1 _)
  have hcount : 0 < us.count u := List.count_pos_iff.mpr hu
  rw [freqAt_of_lt _ u.isLt, countsOf, Vector.getElem_ofFn, BitVec.ofNat_toNat, BitVec.setWidth_eq, Params.maxCount]
  omega

/-- Every unit counted has a leaf in a tree built from the counts (R165). -/
theorem Huff.unitsIn {p : Params} {us : List Byte} {t : HuffTree} (h : Huff (countsOf p us) t) : unitsIn us t := by
  intro u hu
  have hnat : (symbolOf u).toNat = u.toNat := BitVec.toNat_setWidth_of_le (by decide)
  exact (h.mem_leaves _).mpr ⟨BitVec.le_of_lt (symbolOf_lt u), by rw [hnat]; exact freqAt_countsOf_pos p hu⟩

/-- A symbol with a leaf has an entry in the tree's code table (R132). -/
theorem codeAt_isSome_of_mem_leaves {code : CodeTable} {t : HuffTree} (h : isCodeTableOf code t) {x : Symbol} (hx : x ≤ eos)
    (hmem : x ∈ t.leaves) : (codeAt code x).isSome := by
  rw [codeAt_of_isCodeTableOf h hx, Option.isSome_iff_ne_none, Ne, path_eq_none_iff]
  exact not_not_intro hmem

/-! ### The steps of COMPRESS up to the code table -/

@[simp] theorem ReadPort.rewound_bits (rd : ReadPort) : rd.rewound.bits = rd.bits := rfl

/-- After a REWIND the units left are those of the whole stream. -/
@[simp] theorem ReadPort.units_rewound (rd : ReadPort) : rd.rewound.units = rd.bytes := rfl

/-- The first three steps count the whole stream and go back to its start (R197). -/
theorem rewind_fcount_rewind (p : Params) (s : State) :
    rewind (fcount p (rewind s)) = (s.setFreq (countsOf p s.rd.bytes)).setRd s.rd.rewound := by
  simp only [rewind, fcount_eq, State.setRd_rd, ReadPort.units_rewound]
  simp only [State.setFreq, State.setRd, ReadPort.rewound]

/-- CTGEN accepts the tree that TBUILD has just made, and makes its code table (R116, R131). -/
theorem tbuild_ctgen (p : Params) {s : State} (herr : s.err = false) :
    ∃ t table, t = buildTree (p.tie s.freq) s.freq ∧ isCodeTableOf table t ∧
      (s.gate (tbuild p)).gate ctgen = (s.setTree .tbuild t).setCode table := by
  have hwf : (buildTree (p.tie s.freq) s.freq).wellFormed = true := (huff_buildTree _ _).wellFormed
  refine ⟨_, _, rfl, codeWalk_isCodeTableOf ((HuffTree.wellFormed_iff _).mp hwf).2, ?_⟩
  rw [State.gate_of_ok herr, State.gate_of_ok (by exact herr), ctgen_of_wellFormed rfl hwf]
  rfl

/-! ### The steps of COMPRESS that write -/

theorem getD_codeAt_eq_codeOf {code : CodeTable} {t : HuffTree} (h : isCodeTableOf code t) {x : Symbol} (hx : x ≤ eos) :
    (codeAt code x).getD [] = codeOf t x := by
  rw [codeAt_of_isCodeTableOf h hx, codeOf]

/-- What PENC writes through the code table of a tree is the payload under that tree (R163). -/
theorem unitCodes_append_eq_pay {code : CodeTable} {t : HuffTree} (h : isCodeTableOf code t) (us : List Byte) :
    unitCodes code us ++ (codeAt code eos).getD [] = pay us t := by
  simp only [unitCodes, pay, getD_codeAt_eq_codeOf h (BitVec.le_of_lt (symbolOf_lt _)),
    getD_codeAt_eq_codeOf h (BitVec.le_refl eos)]

section
variable {p : Params} {s : State} (hc : s.wr.closed = false) (htable : isCodeTableOf s.code s.tree)
  (hunits : unitsIn s.rd.units s.tree) (heos : eos ∈ s.tree.leaves)
include hc htable hunits heos

/-- PENC raises nothing on units whose symbols are in the tree that CODE was made from (R163, R165). -/
theorem penc_of_unitsIn (hv : s.codeValid = true) :
    penc s = (s.setRd { s.rd with pos := s.rd.bits.length }).setWr (s.wr.writeSeq (pay s.rd.units s.tree)) := by
  have hall : ∀ u ∈ s.rd.units, (codeAt s.code (symbolOf u)).isSome := fun u hu =>
    codeAt_isSome_of_mem_leaves htable (BitVec.le_of_lt (symbolOf_lt u)) (hunits u hu)
  have hend : (codeAt s.code eos).isSome := codeAt_isSome_of_mem_leaves htable (BitVec.le_refl eos) heos
  rw [penc_of_open hv hc (pencLoop_of_coded s.wr hall), if_pos hend, State.endWith_none, unitCodes_append_eq_pay htable]

/-- WMAGIC, TENC and PENC append magic, header and payload, and none of them raises (R197). -/
theorem wmagic_tenc_penc (herr : s.err = false) (htree : s.treeValid = true) (hcode : s.codeValid = true) :
    ((s.gate (wmagic p)).gate tenc).gate penc = (s.setRd { s.rd with pos := s.rd.bits.length }).setWr
      (s.wr.writeSeq (bitsOf p.magic ++ ser s.tree ++ pay s.rd.units s.tree)) := by
  have hmagic : s.gate (wmagic p) = s.setWr (s.wr.writeSeq (bitsOf p.magic)) := by
    rw [State.gate_of_ok herr, wmagic_of_open hc]
  have htenc : (s.gate (wmagic p)).gate tenc = s.setWr (s.wr.writeSeq (bitsOf p.magic ++ ser s.tree)) := by
    rw [hmagic, State.gate_of_ok (by exact herr), tenc_of_open (by exact htree) (by exact hc), State.setWr_wr,
      WritePort.writeSeq_writeSeq]
    rfl
  rw [htenc, State.gate_of_ok (by exact herr),
    penc_of_unitsIn (by exact hc) (by exact htable) (by exact hunits) (by exact heos) (by exact hcode), State.setWr_wr,
    WritePort.writeSeq_writeSeq]
  rfl

end

/-! ### COMPRESS -/

/-- What the steps of COMPRESS come to on an open WR, none of them raising (R197). -/
theorem compressSteps_eq (p : Params) {s : State} (herr : s.err = false) (hc : s.wr.closed = false) :
    ∃ t table, t = buildTree (p.tie (countsOf p s.rd.bytes)) (countsOf p s.rd.bytes) ∧ isCodeTableOf table t ∧
      compressSteps p s = ((((s.setFreq (countsOf p s.rd.bytes)).setTree .tbuild t).setCode table).setRd
        { s.rd with pos := s.rd.bits.length }).setWr
          (s.wr.writeSeq (bitsOf p.magic ++ ser t ++ pay s.rd.bytes t)) := by
  obtain ⟨t, table, ht, htable, htables⟩ :=
    tbuild_ctgen p (s := (s.setFreq (countsOf p s.rd.bytes)).setRd s.rd.rewound) (by simpa using herr)
  have hhuff : Huff (countsOf p s.rd.bytes) t := ht ▸ huff_buildTree _ _
  refine ⟨t, table, ht, htable, ?_⟩
  rw [compressSteps, rewind_fcount_rewind, htables,
    wmagic_tenc_penc (by exact hc) (by exact htable) (by exact hhuff.unitsIn) (by exact hhuff.eos_mem_leaves)
      (by simpa using herr) rfl rfl]
  simp only [State.setFreq, State.setRd, State.setTree, State.setCode, State.setWr, ReadPort.units_rewound,
    ReadPort.rewound_bits]

theorem compress_of_open {p : Params} {s : State} (hc : s.wr.closed = false) :
    compress p s = closeWr p (compressSteps p s) := by
  simp [compress, hc]

theorem compress_of_closed {p : Params} {s : State} (hc : s.wr.closed = true) :
    compress p s = s.raise .other .sequence := by
  simp [compress, hc]

theorem exec_compress (s : State) : exec .compress s = .next (s.gate (compress params)) := rfl

theorem exec_fcount_of_ok {s : State} (herr : s.err = false) : exec .fcount s = .next (fcount params s) := by
  rw [exec_fcount, State.gate_of_ok herr]

/-- FCOUNT after REWIND raises nothing, so the second REWIND is let through (R101). -/
theorem fcount_rewind_err (p : Params) (s : State) : (fcount p (rewind s)).err = s.err := by
  rw [fcount_eq, State.setRd_err, State.setFreq_err, rewind, State.setRd_err]

/-- Settles O33: a command is its body under the gate, as a step of COMPRESS is, and the closed form of the steps has no
error in it. -/
theorem compressIsScript : Obligations.CompressIsScript := by
  unfold Obligations.CompressIsScript
  intro s herr
  rw [exec_compress, State.gate_of_ok herr]
  refine ⟨fun hc => ?_, fun hc => ?_⟩
  · rw [compress_of_open hc]
    obtain ⟨t, table, -, -, hsteps⟩ := compressSteps_eq params herr hc
    refine ⟨rewind s, fcount params (rewind s), _, _, _, _, _, _, _, exec_rewind_of_ok herr, exec_fcount_of_ok herr,
      exec_rewind_of_ok ?_, exec_tbuild _, exec_ctgen _, exec_wmagic _, exec_tenc _, exec_penc _, exec_close _, rfl, ?_⟩
    · rw [fcount_rewind_err, herr]
    · rw [← compressSteps, hsteps]
      exact ⟨by simpa [closeWr] using herr, rfl, rfl, rfl, rfl, WritePort.close_closed _ _⟩
  · rw [compress_of_closed hc, State.raise_other, Error.code]

end Sys2Proof.Machine
end

section
/-!
PROOFS on trees and their headers (spec/10_state.md R31, spec/30_encoding.md R84, R85, spec/43_tree_codec.md R155): the counts
of a full binary tree, the inverse laws of Ser and Deser, and TDEC of what TENC wrote.
-/

namespace Sys2Proof.Machine

/-! ### Counts -/

theorem HuffTree.length_leaves_pos (t : HuffTree) : 0 < t.leaves.length := List.length_pos_iff.mpr t.leaves_ne_nil

/-- A full binary tree has one internal node less than leaves (R31). -/
theorem HuffTree.nodes_add_one (t : HuffTree) : t.nodes + 1 = 2 * t.leaves.length := by
  induction t with
  | leaf => rfl
  | node w l r ihl ihr => simp only [HuffTree.nodes, HuffTree.leaves, List.length_append]; omega

/-- A leaf takes 10 bits of the header and an internal node 1 (R81, R85). -/
theorem length_ser_add_one (t : HuffTree) : (ser t).length + 1 = 11 * t.leaves.length := by
  induction t with
  | leaf s w => simp [ser, HuffTree.leaves]
  | node w l r ihl ihr => simp only [ser, HuffTree.leaves, List.length_cons, List.length_append]; omega

theorem HuffTree.depth_lt_length_leaves (t : HuffTree) : t.depth < t.leaves.length := by
  induction t with
  | leaf => exact Nat.one_pos
  | node w l r ihl ihr => simp only [HuffTree.depth, HuffTree.leaves, List.length_append]; omega

/-- Settles O49: the three counts, each by induction on the tree. -/
theorem headerLength : Obligations.HeaderLength := by
  unfold Obligations.HeaderLength
  intro t
  have hnodes := t.nodes_add_one
  have hser := length_ser_add_one t
  exact ⟨by omega, by omega, t.depth_lt_length_leaves⟩

theorem length_le_depth_of_path {t : HuffTree} {x : Symbol} {c : Bits} (h : path t x = some c) : c.length ≤ t.depth := by
  induction t generalizing c with
  | leaf y w =>
    simp only [path, Option.ite_none_right_eq_some, Option.some.injEq] at h
    simp [← h.2]
  | node w l r ihl ihr =>
    simp only [path] at h
    cases hl : path l x with
    | some p =>
      have hlen := ihl hl
      simp only [hl, Option.some.injEq] at h
      simp only [← h, List.length_cons, HuffTree.depth]
      omega
    | none =>
      simp only [hl, Option.map_eq_some_iff] at h
      obtain ⟨p, hp, rfl⟩ := h
      have hlen := ihr hp
      simp only [List.length_cons, HuffTree.depth]
      omega

/-- Settles O50: 513 nodes are 257 leaves, which bound the depth and so the codes. -/
theorem storedTreeBounds : Obligations.StoredTreeBounds := by
  unfold Obligations.StoredTreeBounds
  intro t (ht : t.nodes ≤ 513)
  have hnodes := t.nodes_add_one
  have hser := length_ser_add_one t
  have hdepth := t.depth_lt_length_leaves
  refine ⟨by omega, by omega, by omega, fun x c hc => ?_⟩
  have hlen := length_le_depth_of_path hc
  omega

/-- Leaves without repetition among 257 symbols are at most 257 (R30, R31). -/
theorem HuffTree.length_leaves_le_of_wellFormed {t : HuffTree} (h : t.wellFormed = true) : t.leaves.length ≤ 257 := by
  obtain ⟨hle, hnodup⟩ := t.wellFormed_iff.mp h
  have hvalues : (t.leaves.map BitVec.toNat).Nodup := hnodup.map fun _ _ => BitVec.eq_of_toNat_eq
  have hrange : t.leaves.map BitVec.toNat ⊆ List.range 257 := by
    intro k hk
    obtain ⟨x, hx, rfl⟩ := List.mem_map.mp hk
    exact List.mem_range.mpr (toNat_lt_of_le_eos (hle x hx))
  simpa using (hvalues.subperm hrange).length_le

/-- A well-formed tree fits the tree store (R31). -/
theorem HuffTree.nodes_le_of_wellFormed {t : HuffTree} (h : t.wellFormed = true) : t.nodes ≤ nodeCap := by
  have hleaves := HuffTree.length_leaves_le_of_wellFormed h
  have hnodes := t.nodes_add_one
  exact (by omega : t.nodes ≤ 513)

/-! ### Headers -/

/-- Settles O47: both inverse laws of R84 stand with the tree codec's proofs. -/
theorem headerInverses : Obligations.HeaderInverses := ⟨deser_ser_append, fun _ _ _ => ser_append_of_deser⟩

/-- Settles O48: parsing the longer header gives its own tree, and also that of the header it begins with. -/
theorem headerPrefixFree : Obligations.HeaderPrefixFree := by
  unfold Obligations.HeaderPrefixFree
  intro t u x h
  have hu : deser (ser u) = some (u.unweighted, []) := by simpa using deser_ser_append u []
  rw [h, deser_ser_append] at hu
  simp only [Option.some.injEq, Prod.mk.injEq] at hu
  exact ⟨hu.2, hu.1⟩

/-! ### TDEC of a header -/

/-- A port moved over the bits `a` stands before what follows them. -/
theorem ReadPort.rest_add_length {rd : ReadPort} {a x : Bits} (h : rd.rest = a ++ x) :
    ReadPort.rest { rd with pos := rd.pos + a.length } = x := by
  rw [ReadPort.rest] at h
  rw [ReadPort.rest, ← List.drop_drop, h, List.drop_left]

/-- Moving over the first bits left is leaving the others. -/
theorem ReadPort.leaving_eq {rd : ReadPort} {a x : Bits} (h : rd.rest = a ++ x) (ha : a ≠ []) :
    rd.leaving x = { rd with pos := rd.pos + a.length } := by
  have hend : rd.pos + rd.rest.length = rd.bits.length := ReadPort.pos_add_length_rest (by simp [h, ha])
  have hpos : rd.bits.length - x.length = rd.pos + a.length := by rw [← hend, h, List.length_append]; omega
  rw [ReadPort.leaving, hpos]

theorem ser_ne_nil (t : HuffTree) : ser t ≠ [] := by cases t <;> simp [ser]

/-- TDEC where the header of a tree stands, whatever follows it (R155). -/
theorem tdec_of_header {s : State} {t : HuffTree} {x : Bits} (h : s.rd.rest = ser t ++ x) (hn : t.nodes ≤ nodeCap) :
    tdec s = (s.setRd { s.rd with pos := s.rd.pos + (ser t).length }).setTree .tdec t.unweighted := by
  have hparse : deser s.rd.rest = some (t.unweighted, x) := by rw [h, deser_ser_append]
  rw [tdec_of_deser hparse (by simpa using hn), ReadPort.leaving_eq h (ser_ne_nil t)]

/-- Settles O51: on a fresh WR TENC writes the header alone, and TDEC reads a header back, up to the weights. -/
theorem tencTdecInverse : Obligations.TencTdecInverse := by
  unfold Obligations.TencTdecInverse
  intro s u x herr hv hwr hn huerr
  have hopen : s.wr.closed = false := by rw [hwr]; rfl
  refine ⟨s.setWr (s.wr.writeSeq (ser s.tree)), by rw [exec_tenc, State.gate_of_ok herr, tenc_of_open hv hopen], ?_⟩
  intro hrd
  have hbits : (s.setWr (s.wr.writeSeq (ser s.tree))).wr.bits = ser s.tree := by simp [hwr, WritePort.attached]
  rw [hbits] at hrd ⊢
  have hrest : u.rd.rest = ser s.tree ++ x := by rw [hrd]; rfl
  rw [exec_tdec_of_ok huerr, tdec_of_header hrest hn, hrd, Nat.zero_add, State.setTree, State.setRd]

end Sys2Proof.Machine
end

section
/-!
PROOFS on payloads (spec/44_payload_transducers.md R163, R171 to R177): greedy decoding, PDEC's loop as greedy decoding, and
the payload as what greedy decoding inverts.
-/

namespace Sys2Proof.Machine

/-! ### Greedy decoding -/

/-- Below an internal node a code has a bit at least, so reading one shortens the bits. -/
theorem readCode_length_lt {t : HuffTree} {b b' : Bits} {s : Symbol} (hnode : t.isLeaf = false)
    (h : readCode t b = some (s, b')) : b'.length < b.length := by
  obtain ⟨c, rfl, hc⟩ := readCode_length h
  have hpos : 0 < c.length := List.length_pos_iff.mpr (hc hnode)
  rw [List.length_append]
  omega

/-- A code that has been read to its leaf is read alike whatever follows. -/
theorem readCode_append {t : HuffTree} {b b' : Bits} {s : Symbol} (h : readCode t b = some (s, b')) (y : Bits) :
    readCode t (b ++ y) = some (s, b' ++ y) := by
  induction t generalizing b with
  | leaf x w =>
    simp only [readCode, Option.some.injEq, Prod.mk.injEq] at h ⊢
    exact ⟨h.1, by rw [h.2]⟩
  | node w l r ihl ihr =>
    match b with
    | [] => cases h
    | false :: b => exact ihl h
    | true :: b => exact ihr h

theorem lt_or_eq_or_gt_eos (s : Symbol) : s < eos ∨ s = eos ∨ eos < s := by bv_omega

/-- Greedy decoding comes to an end on every sequence of bits, since each round consumes some (R175). -/
theorem exists_decodes {t : HuffTree} (hnode : t.isLeaf = false) (b : Bits) : ∃ us e rest, Decodes t b us e rest := by
  induction hn : b.length using Nat.strong_induction_on generalizing b with
  | _ n ih =>
    cases hcode : readCode t b with
    | none => exact ⟨[], .exhausted, [], .exhausted hcode⟩
    | some code =>
      obtain ⟨s, b'⟩ := code
      have hlt : b'.length < n := hn ▸ readCode_length_lt hnode hcode
      obtain ⟨us, e, rest, hrest⟩ := ih b'.length hlt b' rfl
      rcases lt_or_eq_or_gt_eos s with hs | rfl | hs
      · exact ⟨_, e, rest, .unit hcode hs hrest⟩
      · exact ⟨[], .sentinel, b', .sentinel hcode⟩
      · exact ⟨[], .reserved, b', .reserved hcode hs⟩

/-! ### PDEC's loop -/

theorem ReadPort.leaving_leaving (rd : ReadPort) (x y : Bits) : (rd.leaving x).leaving y = rd.leaving y := rfl

@[simp] theorem leafOutcome_eos (root : HuffTree) (fuel w : Nat) (rd : ReadPort) (wr : WritePort) :
    leafOutcome root fuel eos w rd wr = ⟨.leaf eos w, rd, wr, none⟩ := if_pos rfl

theorem leafOutcome_of_reserved {s : Symbol} (hs : eos < s) (root : HuffTree) (fuel w : Nat) (rd : ReadPort)
    (wr : WritePort) : leafOutcome root fuel s w rd wr = ⟨.leaf s w, rd, wr, some .illFormedTree⟩ := by
  rw [leafOutcome, if_neg (BitVec.ne_of_lt hs).symm, if_pos hs]

theorem leafOutcome_of_unit {s : Symbol} (hs : s < eos) (root : HuffTree) (fuel w : Nat) (rd : ReadPort)
    (wr : WritePort) :
    leafOutcome root fuel s w rd wr = pdecLoop root fuel root rd (wr.writeSeq (bitsOf (s.setWidth 8 : Byte))) := by
  rw [leafOutcome, if_neg (BitVec.ne_of_lt hs), if_neg (BitVec.not_lt.mpr (BitVec.le_of_lt hs)), WritePort.writeBits_eq]

/-- PDEC's loop from the root through the next code, with fuel left for every bit after it. -/
theorem pdecLoop_of_readCode {t : HuffTree} {rd : ReadPort} {b' : Bits} {s : Symbol} {fuel : Nat}
    (hnode : t.isLeaf = false) (hcode : readCode t rd.rest = some (s, b')) (hfuel : rd.rest.length < fuel) :
    ∃ w fuel', b'.length < fuel' ∧ (rd.leaving b').rest = b' ∧
      ∀ wr, pdecLoop t fuel t rd wr = leafOutcome t fuel' s w (rd.leaving b') wr := by
  obtain ⟨c, hrest, hc⟩ := readCode_length hcode
  have hmoved := ReadPort.leaving_eq hrest (hc hnode)
  rw [hrest] at hcode hfuel
  rw [List.length_append] at hfuel
  obtain ⟨w, hloop⟩ := pdecLoop_code t hnode hrest hcode
  obtain ⟨fuel', rfl⟩ := Nat.exists_eq_add_of_le (show c.length ≤ fuel by omega)
  refine ⟨w, fuel', by omega, ?_, fun wr => ?_⟩
  · rw [hmoved, ReadPort.rest_add_length hrest]
  · rw [hmoved, (hloop fuel' wr).1]

/-- PDEC's loop from the root is greedy decoding (R171, R175). -/
theorem pdecLoop_of_decodes {t : HuffTree} (hnode : t.isLeaf = false) {b rest : Bits} {us : List Byte} {e : Ending}
    (h : Decodes t b us e rest) {rd : ReadPort} (hrest : rd.rest = b) {fuel : Nat} (hfuel : b.length < fuel)
    (wr : WritePort) :
    ∃ cur, (e = .sentinel → ∃ w, cur = .leaf eos w) ∧
      pdecLoop t fuel t rd wr = ⟨cur, rd.leaving rest, wr.writeSeq (bitsOfBytes us), e.error⟩ := by
  induction h generalizing rd fuel wr with
  | sentinel hcode =>
    obtain ⟨w, fuel', -, -, hloop⟩ := pdecLoop_of_readCode hnode (hrest ▸ hcode) (hrest ▸ hfuel)
    exact ⟨_, fun _ => ⟨w, rfl⟩, by simp [hloop, Ending.error]⟩
  | @reserved _ _ s hcode hs =>
    obtain ⟨w, fuel', -, -, hloop⟩ := pdecLoop_of_readCode hnode (hrest ▸ hcode) (hrest ▸ hfuel)
    refine ⟨.leaf s w, nofun, ?_⟩
    rw [hloop, leafOutcome_of_reserved hs, bitsOfBytes_nil, WritePort.writeSeq_nil, Ending.error]
  | exhausted hcode =>
    obtain ⟨cur, hloop⟩ := pdecLoop_exhausted t hnode fuel wr (hrest ▸ hcode) (hrest ▸ hfuel)
    exact ⟨cur, nofun, by simp [hloop, Ending.error, ReadPort.leaving]⟩
  | unit hcode hs _ ih =>
    obtain ⟨w, fuel', hfuel', hleft, hloop⟩ := pdecLoop_of_readCode hnode (hrest ▸ hcode) (hrest ▸ hfuel)
    obtain ⟨cur, hcur, hrun⟩ := ih hleft hfuel' (wr.writeSeq (bitsOf (BitVec.setWidth 8 _)))
    refine ⟨cur, hcur, ?_⟩
    rw [hloop, leafOutcome_of_unit hs, hrun, ReadPort.leaving_leaving, WritePort.writeSeq_writeSeq, bitsOfBytes_cons]

theorem HuffTree.child_unweighted {t : HuffTree} (h : t.unweighted = t) (b : BitVec 1) :
    (t.child b).unweighted = t.child b := by
  cases t with
  | leaf => exact h
  | node w l r =>
    simp only [HuffTree.unweighted, HuffTree.node.injEq] at h
    obtain ⟨-, hl, hr⟩ := h
    by_cases hb : b = 1#1
    · simpa [HuffTree.child, hb] using hr
    · simpa [HuffTree.child, hb] using hl

/-- In a tree of weights 0 PDEC's pointer stands on a subtree of weights 0 throughout (R29). -/
theorem pdecLoop_cur_unweighted {root : HuffTree} (hroot : root.unweighted = root) (fuel : Nat) {cur : HuffTree}
    (hcur : cur.unweighted = cur) (rd : ReadPort) (wr : WritePort) :
    (pdecLoop root fuel cur rd wr).cur.unweighted = (pdecLoop root fuel cur rd wr).cur := by
  induction fuel generalizing cur rd wr with
  | zero => exact hcur
  | succ fuel ih =>
    unfold pdecLoop
    split
    · exact hcur
    · rename_i b rd' _
      have hchild := HuffTree.child_unweighted hcur b
      split
      · rename_i heq
        exact ih (heq ▸ hchild) _ _
      · rename_i heq
        rw [heq] at hchild
        split
        · exact hchild
        · split
          · exact hchild
          · exact ih hroot _ _

/-! ### PDEC -/

section
variable {s : State}

/-- PDEC refuses before anything is read or written (R171, R219). -/
theorem pdec_of_refused (h : s.treeValid = false ∨ s.wr.closed = true) : pdec s = s.raise .other .sequence := by
  rcases h with hv | hc
  · simp [pdec, hv]
  · simp [pdec, hc]

/-- With a tree and WR open PDEC is its loop (R171). -/
theorem pdec_of_open (hv : s.treeValid = true) (hc : s.wr.closed = false) :
    pdec s = (((s.setCur (pdecRun s.tree s.rd s.wr).cur).setRd (pdecRun s.tree s.rd s.wr).rd).setWr
      (pdecRun s.tree s.rd s.wr).wr).endWith .other (pdecRun s.tree s.rd s.wr).err := by
  simp [pdec, hv, hc]

/-- A root that is a leaf is decided before the first read (R173). -/
theorem pdec_of_leaf (hv : s.treeValid = true) (hc : s.wr.closed = false) {x : Symbol} {w : Nat}
    (ht : s.tree = .leaf x w) :
    pdec s = (s.setCur (.leaf x w)).endWith .other (if x = eos then none else some .illFormedTree) := by
  rw [pdec_of_open hv hc, ht, pdecRun]
  split <;> rfl

theorem pdecRun_of_node {t : HuffTree} (hnode : t.isLeaf = false) (rd : ReadPort) (wr : WritePort) :
    pdecRun t rd wr = pdecLoop t (rd.remaining + 1) t rd wr := by
  cases t with
  | leaf => cases hnode
  | node => rfl

/-- PDEC on a tree of more than one node is greedy decoding (R171, R175); its pointer ends on the EOS leaf, and on a
subtree of weights 0 where the tree is one. -/
theorem pdec_of_decodes (hv : s.treeValid = true) (hc : s.wr.closed = false) (hnode : s.tree.isLeaf = false)
    {us : List Byte} {e : Ending} {rest : Bits} (h : Decodes s.tree s.rd.rest us e rest) :
    ∃ cur, (e = .sentinel → ∃ w, cur = .leaf eos w) ∧ (s.tree.unweighted = s.tree → cur.unweighted = cur) ∧
      pdec s = (((s.setCur cur).setRd (s.rd.leaving rest)).setWr (s.wr.writeSeq (bitsOfBytes us))).endWith .other
        e.error := by
  have hfuel : s.rd.rest.length < s.rd.remaining + 1 := by rw [s.rd.length_rest]; exact Nat.lt_succ_self _
  obtain ⟨cur, hcur, hrun⟩ := pdecLoop_of_decodes hnode h rfl hfuel s.wr
  refine ⟨cur, hcur, fun hunweighted => ?_, ?_⟩
  · have hkept := pdecLoop_cur_unweighted hunweighted (s.rd.remaining + 1) hunweighted s.rd s.wr
    rwa [hrun] at hkept
  · rw [pdec_of_open hv hc, pdecRun_of_node hnode, hrun]

end

/-- With ERR clear the gate lets PDEC through (R217). -/
theorem exec_pdec_of_ok {s : State} (herr : s.err = false) : exec .pdec s = .next (pdec s) := by
  rw [exec_pdec, State.gate_of_ok herr]

/-- Settles O25: the leaf is tested before the loop starts. -/
theorem pdecSingleLeaf : Obligations.PdecSingleLeaf := by
  unfold Obligations.PdecSingleLeaf
  intro s x w herr hv hc ht
  rw [exec_pdec_of_ok herr, pdec_of_leaf hv hc ht]
  refine ⟨fun hx => ?_, fun hx => ?_⟩
  · rw [if_pos hx, State.endWith_none, State.setCur]
  · rw [if_neg hx, State.endWith_some, State.raise_other, State.setCur, Error.code]

/-- A command's end, written out for a state that had no error (R216). -/
theorem State.endWith_other {s : State} (herr : s.err = false) (e : Option Error) :
    s.endWith .other e = { s with err := e.isSome, errcode := (e.map Error.code).getD s.errcode } := by
  cases e with
  | none => rw [State.endWith_none, Option.isSome_none, Option.map_none, Option.getD_none, ← herr]
  | some e => rfl

/-- Settles O26: the loop follows greedy decoding, which exists for every sequence of bits. -/
theorem pdecDecodesBits : Obligations.PdecDecodesBits := by
  unfold Obligations.PdecDecodesBits
  intro s herr
  rw [exec_pdec_of_ok herr]
  refine ⟨fun hv hc hnode => ⟨fun us e rest h => ?_, exists_decodes hnode _⟩, fun hv hc hleaf => ?_, fun h => ?_⟩
  · obtain ⟨cur, hcur, -, hpdec⟩ := pdec_of_decodes hv hc hnode h
    refine ⟨cur, hcur, ?_⟩
    rw [hpdec, State.endWith_other (by exact herr)]
    rfl
  · cases ht : s.tree with
    | node w l r => rw [ht] at hleaf; cases hleaf
    | leaf x w =>
      rw [pdec_of_leaf hv hc ht, ← ht]
      by_cases hx : x = eos
      · simp [ht, HuffTree.leaves, hx, State.setCur]
      · simp [ht, HuffTree.leaves, hx, State.setCur, State.raise_other, Error.code]
  · rw [pdec_of_refused h, State.raise_other, Error.code]

/-! ### The payload -/

theorem exists_path_of_mem_leaves {t : HuffTree} {s : Symbol} (h : s ∈ t.leaves) :
    ∃ c, path t s = some c ∧ codeOf t s = c := by
  obtain ⟨c, hc⟩ := Option.ne_none_iff_exists'.mp (mt (path_eq_none_iff t s).mp (not_not_intro h))
  exact ⟨c, hc, by rw [codeOf, hc, Option.getD_some]⟩

/-- The code of a symbol with a leaf leads to that leaf (R87, R176). -/
theorem readCode_codeOf {t : HuffTree} {s : Symbol} (h : s ∈ t.leaves) (b : Bits) :
    readCode t (codeOf t s ++ b) = some (s, b) := by
  obtain ⟨c, hpath, hcode⟩ := exists_path_of_mem_leaves h
  rw [hcode, readCode_path hpath]

/-- A code cut short leads to no leaf (R177). -/
theorem readCode_of_cut {t : HuffTree} {s : Symbol} {b cut : Bits} (h : s ∈ t.leaves) (hcut : cut ≠ [])
    (hcode : codeOf t s = b ++ cut) : readCode t b = none := by
  cases hread : readCode t b with
  | none => rfl
  | some read =>
    obtain ⟨s', b'⟩ := read
    have hlonger : readCode t (b ++ cut) = some (s', b' ++ cut) := readCode_append hread cut
    have hwhole : readCode t (codeOf t s) = some (s, []) := by simpa using readCode_codeOf h []
    rw [hcode, hlonger] at hwhole
    simp [hcut] at hwhole

@[simp] theorem setWidth_symbolOf (u : Byte) : (symbolOf u).setWidth 8 = u := by
  rw [symbolOf, BitVec.setWidth_setWidth_of_le u (by decide), BitVec.setWidth_eq]

@[simp] theorem pay_nil (t : HuffTree) : pay [] t = codeOf t eos := rfl

theorem pay_cons (u : Byte) (us : List Byte) (t : HuffTree) : pay (u :: us) t = codeOf t (symbolOf u) ++ pay us t :=
  List.append_assoc _ _ _

section
variable {t : HuffTree} {us : List Byte} (heos : eos ∈ t.leaves) (hunits : unitsIn us t)
include heos hunits

/-- Greedy decoding of a payload gives its units and stops after it (R176). -/
theorem decodes_pay (x : Bits) : Decodes t (pay us t ++ x) us .sentinel x := by
  induction us with
  | nil => exact .sentinel (readCode_codeOf heos x)
  | cons u us ih =>
    obtain ⟨hu, hrest⟩ := List.forall_mem_cons.mp hunits
    have hread : readCode t (pay (u :: us) t ++ x) = some (symbolOf u, pay us t ++ x) := by
      rw [pay_cons, List.append_assoc, readCode_codeOf hu]
    simpa using Decodes.unit hread (symbolOf_lt u) (ih hrest)

/-- Greedy decoding of a payload cut short gives a beginning of its units and runs out of bits (R177). -/
theorem decodes_cut_pay {b cut : Bits} (hcut : cut ≠ []) (hpay : b ++ cut = pay us t) :
    ∃ done, done <+: us ∧ Decodes t b done .exhausted [] := by
  induction us generalizing b with
  | nil => exact ⟨[], List.nil_prefix, .exhausted (readCode_of_cut heos hcut hpay.symm)⟩
  | cons u us ih =>
    obtain ⟨hu, hrest⟩ := List.forall_mem_cons.mp hunits
    rw [pay_cons, List.append_eq_append_iff] at hpay
    by_cases hinside : ∃ c, c ≠ [] ∧ codeOf t (symbolOf u) = b ++ c
    · obtain ⟨c, hc, hcode⟩ := hinside
      exact ⟨[], List.nil_prefix, .exhausted (readCode_of_cut hu hc hcode)⟩
    · obtain ⟨b', hb, hpay'⟩ : ∃ b', b = codeOf t (symbolOf u) ++ b' ∧ b' ++ cut = pay us t := by
        rcases hpay with ⟨c, hcode, hpay'⟩ | ⟨b', hb, hpay'⟩
        · have hc : c = [] := not_not.mp fun hc => hinside ⟨c, hc, hcode⟩
          subst hc
          exact ⟨[], by simpa using hcode.symm, hpay'⟩
        · exact ⟨b', hb, hpay'.symm⟩
      obtain ⟨done, hdone, hdecodes⟩ := ih hrest hpay'
      refine ⟨u :: done, List.cons_prefix_cons.mpr ⟨rfl, hdone⟩, ?_⟩
      have hread : readCode t b = some (symbolOf u, b') := by rw [hb, readCode_codeOf hu]
      simpa using Decodes.unit hread (symbolOf_lt u) hdecodes

end

/-- On a tree of more than one node the payload is not empty: the sentinel has a code bit. -/
theorem pay_ne_nil {t : HuffTree} (heos : eos ∈ t.leaves) (hnode : t.isLeaf = false) (us : List Byte) : pay us t ≠ [] := by
  obtain ⟨c, hc, hne⟩ := readCode_length (readCode_codeOf heos [])
  have hcode : codeOf t eos ≠ [] := by rw [List.append_cancel_right hc]; exact hne hnode
  simp [pay, hcode]

/-- On the lone leaf of EOS there is no unit to encode and the payload is empty (R173). -/
theorem units_eq_nil_of_leaf {us : List Byte} {w : Nat} (hunits : unitsIn us (.leaf eos w)) : us = [] := by
  refine List.eq_nil_iff_forall_not_mem.mpr fun u hu => ?_
  have heq : symbolOf u = eos := by simpa [HuffTree.leaves] using hunits u hu
  exact BitVec.ne_of_lt (symbolOf_lt u) heq

/-- PDEC inverts the payload (R176), and ends on a leaf of weight 0 where the tree has weights 0. -/
theorem pdec_of_pay {s : State} {us : List Byte} {x : Bits} (hv : s.treeValid = true) (hc : s.wr.closed = false)
    (heos : eos ∈ s.tree.leaves) (hunits : unitsIn us s.tree) (hrest : s.rd.rest = pay us s.tree ++ x) :
    ∃ w, (s.tree.unweighted = s.tree → w = 0) ∧
      pdec s = ((s.setCur (.leaf eos w)).setRd { s.rd with pos := s.rd.pos + (pay us s.tree).length }).setWr
        (s.wr.writeSeq (bitsOfBytes us)) := by
  cases hleaf : s.tree.isLeaf with
  | false =>
    obtain ⟨cur, hcur, hkept, hpdec⟩ := pdec_of_decodes hv hc hleaf (hrest ▸ decodes_pay heos hunits x)
    obtain ⟨w, rfl⟩ := hcur rfl
    refine ⟨w, fun hunweighted => ?_, ?_⟩
    · simpa [HuffTree.unweighted, eq_comm] using hkept hunweighted
    · rw [hpdec, ReadPort.leaving_eq hrest (pay_ne_nil heos hleaf us), Ending.error, State.endWith_none]
  | true =>
    cases ht : s.tree with
    | node w l r => rw [ht] at hleaf; cases hleaf
    | leaf y w =>
      rw [ht] at heos hunits
      obtain rfl : eos = y := by simpa [HuffTree.leaves] using heos
      obtain rfl := units_eq_nil_of_leaf hunits
      refine ⟨w, fun hunweighted => ?_, ?_⟩
      · simpa [HuffTree.unweighted, eq_comm] using hunweighted
      · rw [pdec_of_leaf hv hc ht, if_pos rfl, State.endWith_none, bitsOfBytes_nil, WritePort.writeSeq_nil]
        simp [codeOf, path, State.setRd, State.setWr, State.setCur]

/-- Settles O57: greedy decoding inverts the payload, and PDEC follows it. -/
theorem pdecInvertsPayload : Obligations.PdecInvertsPayload := by
  unfold Obligations.PdecInvertsPayload
  intro s us x herr hv hc hcomplete hunits hrest
  obtain ⟨w, -, hpdec⟩ := pdec_of_pay hv hc (s.tree.complete_iff.mp hcomplete).2 hunits hrest
  exact ⟨w, by rw [exec_pdec_of_ok herr, hpdec, State.setWr, State.setRd, State.setCur, WritePort.writeSeq]⟩

/-- Settles O58: the cut falls inside one of the codes, and the bits run out there. -/
theorem truncatedPayloadDetected : Obligations.TruncatedPayloadDetected := by
  unfold Obligations.TruncatedPayloadDetected
  intro s us cut herr hv hc hcomplete hunits hpay hcut
  have heos : eos ∈ s.tree.leaves := (s.tree.complete_iff.mp hcomplete).2
  obtain ⟨done, hdone, hdecodes⟩ := decodes_cut_pay heos hunits hcut hpay
  have hnode : s.tree.isLeaf = false := by
    cases ht : s.tree with
    | node => rfl
    | leaf y w =>
      rw [ht] at hunits heos hpay
      obtain rfl : eos = y := by simpa [HuffTree.leaves] using heos
      obtain rfl := units_eq_nil_of_leaf hunits
      simp [codeOf, path, hcut] at hpay
  obtain ⟨cur, -, -, hpdec⟩ := pdec_of_decodes hv hc hnode hdecodes
  refine ⟨cur, done, hdone, ?_⟩
  rw [exec_pdec_of_ok herr, hpdec]
  simp [State.setWr, State.setRd, State.setCur, WritePort.writeSeq, Ending.error, State.raise_other, ReadPort.leaving,
    Error.code]

/-- Settles O24: CODE has the codes of TREE, so PENC meets no symbol without one. -/
theorem pencWritesPayload : Obligations.PencWritesPayload := by
  unfold Obligations.PencWritesPayload
  intro s herr hv hc htable hunits heos
  rw [exec_penc, State.gate_of_ok herr, penc_of_unitsIn hc htable hunits heos hv, State.setWr, State.setRd,
    WritePort.writeSeq]

end Sys2Proof.Machine
end

section
/-!
PROOFS of the composites' closed forms (spec/45_sequencer_and_port_ops.md R198 to R202): the file COMPRESS writes, DECOMPRESS
of a file, the round trip, and what the two outputs depend on.
-/

namespace Sys2Proof.Machine

open Sys2Proof.Config

/-! ### COMPRESS -/

theorem exec_compress_of_ok {s : State} (herr : s.err = false) : exec .compress s = .next (compress params s) := by
  rw [exec_compress, State.gate_of_ok herr]

/-- Settles O32: the steps append magic, header and payload, and the closing pads them. -/
theorem compressWritesFile : Obligations.CompressWritesFile := by
  unfold Obligations.CompressWritesFile
  intro s herr
  rw [exec_compress_of_ok herr]
  refine ⟨fun hc => ?_, fun hc => ?_⟩
  · obtain ⟨t, table, ht, htable, hsteps⟩ := compressSteps_eq params herr hc
    refine ⟨t, table, ht, htable, ?_⟩
    rw [compress_of_open hc, hsteps, closeWr, WritePort.close_of_open _ (by exact hc)]
    simp [State.setWr, State.setRd, State.setCode, State.setTree, State.setFreq, params]
  · rw [compress_of_closed hc, State.raise_other, Error.code]

/-! ### DECOMPRESS -/

theorem exec_decompress_of_ok {s : State} (herr : s.err = false) : exec .decompress s = .next (decompress params s) := by
  rw [exec_decompress, State.gate_of_ok herr]

/-- Codes do not depend on weights (R87). -/
@[simp] theorem path_unweighted (t : HuffTree) (x : Symbol) : path t.unweighted x = path t x := by
  induction t with
  | leaf => rfl
  | node w l r ihl ihr => rw [HuffTree.unweighted, path, path, ihl, ihr]

@[simp] theorem pay_unweighted (us : List Byte) (t : HuffTree) : pay us t.unweighted = pay us t := by
  simp only [pay, codeOf, path_unweighted]

/-- CMAGIC where the magic number stands (R188). -/
theorem cmagic_of_magic {p : Params} {s : State} {x : Bits} (h : s.rd.rest = bitsOf p.magic ++ x) :
    cmagic p s = s.setRd { s.rd with pos := s.rd.pos + 32 } := by
  rw [cmagic_of_rest h, if_pos rfl, State.endWith_none]

/-- DECOMPRESS's steps on a file, none of them raising (R199). -/
theorem decompressSteps_of_file {p : Params} {s : State} {t : HuffTree} {us : List Byte} {x : Bits}
    (herr : s.err = false) (hc : s.wr.closed = false) (hcomplete : t.complete = true) (hunits : unitsIn us t)
    (hrest : s.rd.rest = bitsOf p.magic ++ (ser t ++ (pay us t ++ x))) :
    decompressSteps p s = (((s.setTree .tdec t.unweighted).setCur (.leaf eos 0)).setRd (s.rd.leaving x)).setWr
      (s.wr.writeSeq (bitsOfBytes us)) := by
  obtain ⟨hwf, heos⟩ := t.complete_iff.mp hcomplete
  have hmagic := cmagic_of_magic hrest
  have hrest1 : (cmagic p s).rd.rest = ser t ++ (pay us t ++ x) := by
    rw [hmagic, State.setRd_rd]
    simpa using ReadPort.rest_add_length hrest
  have htdec := tdec_of_header hrest1 (HuffTree.nodes_le_of_wellFormed hwf)
  have hrest2 : (tdec (cmagic p s)).rd.rest = pay us (tdec (cmagic p s)).tree ++ x := by
    rw [htdec, State.setTree_tree, pay_unweighted, State.setTree_rd, State.setRd_rd, ReadPort.rest_add_length hrest1]
  obtain ⟨w, hw, hpdec⟩ := pdec_of_pay (by rw [htdec]; rfl) (by rw [htdec, hmagic]; exact hc)
    (by rw [htdec]; simpa using heos) (by rw [htdec]; simpa [unitsIn] using hunits) hrest2
  obtain rfl : w = 0 := hw (by simp [htdec])
  have herr1 : (cmagic p s).err = false := by rw [hmagic]; exact herr
  have herr2 : (tdec (cmagic p s)).err = false := by rw [htdec]; exact herr1
  have hpos : s.rd.leaving x = { s.rd with pos := s.rd.pos + 32 + (ser t).length + (pay us t).length } := by
    rw [ReadPort.leaving_eq (a := bitsOf p.magic ++ ser t ++ pay us t) (by simpa using hrest) (by simp [ser_ne_nil])]
    simp [Nat.add_assoc]
  rw [decompressSteps, State.gate_of_ok herr1, State.gate_of_ok herr2, hpdec, htdec, hmagic, hpos]
  simp [State.setWr, State.setRd, State.setCur, State.setTree]

/-- Settles O35: each of the three steps consumes its part of the file, and the closing pads the units. -/
theorem decompressReadsFile : Obligations.DecompressReadsFile := by
  unfold Obligations.DecompressReadsFile
  intro s t us x herr hc hcomplete hunits hrest
  have hfile : s.rd.rest = bitsOf params.magic ++ (ser t ++ (pay us t ++ x)) := by simpa [params] using hrest
  rw [exec_decompress_of_ok herr, decompress_of_open hc, decompressSteps_of_file herr hc hcomplete hunits hfile, closeWr,
    WritePort.close_of_open _ (by exact hc)]
  simp [State.setWr, State.setRd, State.setCur, State.setTree, ReadPort.leaving, params]

/-! ### The round trip -/

/-- Padding adds nothing to whole bytes (R60). -/
theorem padded_bitsOfBytes (padBit : Bool) (bytes : List Byte) : padded padBit (bitsOfBytes bytes) = bitsOfBytes bytes := by
  simp [padded]

theorem Huff.complete {f : FreqTable} {t : HuffTree} (h : Huff f t) : t.complete = true :=
  t.complete_iff.mpr ⟨h.wellFormed, h.eos_mem_leaves⟩

/-- Attaching the bytes that a closed port shows gives its bits back (R53, R61). -/
theorem ReadPort.rest_attached_bytes {wr : WritePort} (h : wr.bits.length % 8 = 0) :
    (ReadPort.attached wr.bytes).rest = wr.bits := bitsOfBytes_bytesOfBits h

/-- COMPRESS into a fresh WR: the file of a complete tree that has a leaf for every byte (R165, R198). -/
theorem exec_compress_fresh {s : State} {bytes : List Byte} (herr : s.err = false) (hrd : s.rd = ReadPort.attached bytes)
    (hwr : s.wr = WritePort.attached) :
    ∃ t u, exec .compress s = .next u ∧ u.err = false ∧ t.complete = true ∧ unitsIn bytes t ∧
      u.wr = { bits := padded padBit (bitsOf magic ++ ser t ++ pay bytes t), closed := true } := by
  have hbytes : s.rd.bytes = bytes := by rw [hrd]; exact bytesOfBits_bitsOfBytes bytes
  obtain ⟨t, table, ht, -, hcompress⟩ := (compressWritesFile s herr).1 (by rw [hwr]; rfl)
  rw [hbytes] at ht hcompress
  have hhuff : Huff (countsOf params bytes) t := ht ▸ huff_buildTree _ _
  refine ⟨t, _, hcompress, herr, hhuff.complete, hhuff.unitsIn, ?_⟩
  rw [hwr]
  rfl

/-- DECOMPRESS of a file into a fresh WR: the units, which are whole bytes already (R199). -/
theorem exec_decompress_fresh {s : State} {t : HuffTree} {us : List Byte} {x : Bits} (herr : s.err = false)
    (hwr : s.wr = WritePort.attached) (hcomplete : t.complete = true) (hunits : unitsIn us t)
    (hrest : s.rd.rest = bitsOf magic ++ ser t ++ pay us t ++ x) :
    ∃ u, exec .decompress s = .next u ∧ u.err = false ∧ u.wr = { bits := bitsOfBytes us, closed := true } := by
  refine ⟨_, decompressReadsFile s t us x herr (by rw [hwr]; rfl) hcomplete hunits hrest, herr, ?_⟩
  rw [hwr, show WritePort.attached.bits = [] from rfl, List.nil_append, padded_bitsOfBytes]

/-- Settles O36: what COMPRESS writes is a file, and the pad bits after it are what DECOMPRESS leaves unread. -/
theorem roundTrip : Obligations.RoundTrip := by
  unfold Obligations.RoundTrip
  intro s bytes herr hrd hwr
  obtain ⟨tree, t, hcompress, hterr, hcomplete, hunits, htwr⟩ := exec_compress_fresh herr hrd hwr
  have hfile : (ReadPort.attached t.wr.bytes).rest = padded padBit (bitsOf magic ++ ser tree ++ pay bytes tree) := by
    rw [htwr, ReadPort.rest_attached_bytes (length_padded _ _)]
  obtain ⟨u, hdecompress, huerr, huwr⟩ := exec_decompress_fresh
    (s := { t with rd := ReadPort.attached t.wr.bytes, wr := WritePort.attached }) hterr rfl hcomplete hunits hfile
  refine ⟨t, u, hcompress, hterr, by rw [htwr], hdecompress, huerr, by rw [huwr], ?_, by rw [huwr]⟩
  rw [huwr, WritePort.bytes, bytesOfBits_bitsOfBytes]

/-! ### What the outputs depend on -/

/-- A tree has one code table (R132). -/
theorem isCodeTableOf_unique {c d : CodeTable} {t : HuffTree} (hc : isCodeTableOf c t) (hd : isCodeTableOf d t) : c = d :=
  Vector.ext fun i hi => (hc ⟨i, hi⟩).trans (hd ⟨i, hi⟩).symm

/-- Two runs that have come to the same ports and the same error, whatever else their states hold. -/
structure State.SameRun (a b : State) : Prop where
  rd : a.rd = b.rd
  wr : a.wr = b.wr
  err : a.err = b.err
  errcode : a.err = true → a.errcode = b.errcode

namespace State.SameRun

variable {a b : State}

theorem raise (h : a.SameRun b) (who : Raiser) (e : Error) : (a.raise who e).SameRun (b.raise who e) :=
  ⟨h.rd, h.wr, rfl, fun _ => rfl⟩

theorem endWith (h : a.SameRun b) (who : Raiser) (e : Option Error) : (a.endWith who e).SameRun (b.endWith who e) := by
  cases e with
  | none => exact h
  | some e => exact h.raise who e

theorem setRd (h : a.SameRun b) (rd : ReadPort) : (a.setRd rd).SameRun (b.setRd rd) := ⟨rfl, h.wr, h.err, h.errcode⟩

theorem setWr (h : a.SameRun b) (wr : WritePort) : (a.setWr wr).SameRun (b.setWr wr) := ⟨h.rd, rfl, h.err, h.errcode⟩

theorem setCur (h : a.SameRun b) (t : HuffTree) : (a.setCur t).SameRun (b.setCur t) := ⟨h.rd, h.wr, h.err, h.errcode⟩

theorem setTree (h : a.SameRun b) (src : TreeSrc) (t : HuffTree) : (a.setTree src t).SameRun (b.setTree src t) :=
  ⟨h.rd, h.wr, h.err, h.errcode⟩

theorem gate (h : a.SameRun b) {body : State → State} (hbody : a.err = false → (body a).SameRun (body b)) :
    (a.gate body).SameRun (b.gate body) := by
  cases ha : a.err with
  | true => rwa [State.gate_of_err ha, State.gate_of_err (h.err ▸ ha)]
  | false => rw [State.gate_of_ok ha, State.gate_of_ok (h.err ▸ ha)]; exact hbody ha

theorem closeWr (h : a.SameRun b) (p : Params) : (closeWr p a).SameRun (closeWr p b) := by
  rw [Machine.closeWr, Machine.closeWr, h.wr]
  exact h.setWr _

theorem cmagic (h : a.SameRun b) (p : Params) : (cmagic p a).SameRun (cmagic p b) := by
  rw [Machine.cmagic, Machine.cmagic, h.rd]
  split
  · exact (h.setRd _).raise _ _
  · split
    · exact h.setRd _
    · exact (h.setRd _).raise _ _

/-- TDEC reads RD alone, and stores one tree in both states unless it raises (R150). -/
theorem tdec (h : a.SameRun b) : (tdec a).SameRun (tdec b) ∧
    ((tdec a).err = false → (tdec a).tree = (tdec b).tree ∧ (tdec a).treeValid = (tdec b).treeValid) := by
  rw [Machine.tdec, Machine.tdec, h.rd]
  split
  · exact ⟨(h.setRd _).setTree _ _, fun _ => ⟨rfl, rfl⟩⟩
  · exact ⟨(h.setRd _).raise _ _, fun herr => by simp at herr⟩

/-- PDEC reads TREE, TREE_VALID and the ports (R171). -/
theorem pdec (h : a.SameRun b) (htree : a.tree = b.tree) (hvalid : a.treeValid = b.treeValid) :
    (pdec a).SameRun (pdec b) := by
  rw [Machine.pdec, Machine.pdec, htree, hvalid, h.rd, h.wr]
  split
  · exact h.raise _ _
  · split
    · exact h.raise _ _
    · exact (((h.setCur _).setRd _).setWr _).endWith _ _

theorem decompressSteps (h : a.SameRun b) (p : Params) : (decompressSteps p a).SameRun (decompressSteps p b) := by
  have hmagic := h.cmagic p
  have htdec := hmagic.tdec
  refine (hmagic.gate fun _ => htdec.1).gate fun herr => ?_
  have herra : (Machine.cmagic p a).err = false := State.err_of_gate herr
  have herrb : (Machine.cmagic p b).err = false := hmagic.err ▸ herra
  rw [State.gate_of_ok herra] at herr ⊢
  rw [State.gate_of_ok herrb]
  exact htdec.1.pdec (htdec.2 herr).1 (htdec.2 herr).2

end State.SameRun

/-- Settles O37: COMPRESS in closed form speaks of the attached bits and WR alone, and DECOMPRESS run from two states with
the same ports stays in step. -/
theorem compositesDeterministic : Obligations.CompositesDeterministic := by
  unfold Obligations.CompositesDeterministic
  intro a b ha hb hwra hwrb
  refine ⟨fun hbits => ?_, fun hrd => ?_⟩
  · have hbytes : a.rd.bytes = b.rd.bytes := by rw [ReadPort.bytes, hbits, ReadPort.bytes]
    obtain ⟨t, table, ht, htable, hexec⟩ := (compressWritesFile a ha).1 (by rw [hwra]; rfl)
    obtain ⟨u, table', hu, htable', hexec'⟩ := (compressWritesFile b hb).1 (by rw [hwrb]; rfl)
    obtain rfl : t = u := by rw [ht, hu, hbytes]
    exact ⟨_, _, hexec, hexec', by simp only [hwra, hwrb, hbytes], rfl, by simp only [hbytes],
      isCodeTableOf_unique htable htable'⟩
  · have hrun : a.SameRun b := ⟨hrd, hwra.trans hwrb.symm, ha.trans hb.symm, fun herr => by simp [ha] at herr⟩
    have hend := (hrun.decompressSteps params).closeWr params
    rw [exec_decompress_of_ok ha, exec_decompress_of_ok hb, decompress_of_open (by rw [hwra]; rfl),
      decompress_of_open (by rw [hwrb]; rfl)]
    exact ⟨_, _, rfl, rfl, hend.wr, hend.rd, hend.err, hend.errcode⟩

end Sys2Proof.Machine
end

section
/-!
PROOFS over all commands: what each leaves as it was (spec/10_state.md R20, spec/20_memory.md section 5), and which errors
each can end with (spec/60_exceptions.md R214, R216).
-/

namespace Sys2Proof.Machine

open Sys2Proof.Config

/-! ### Frames -/

/-- What command `i`, run from `s` to `t`, leaves as it was (the columns of R20, and R51, R52, R58, R65 for the ports). -/
structure CommandFrame (i : Instr) (s t : State) : Prop where
  host : t.host = s.host
  freq : i ∉ [Instr.fcount, .compress, .clear] → t.freq = s.freq
  tree : i ∉ [Instr.tbuild, .tdec, .compress, .decompress] → t.tree = s.tree
  code : i ∉ [Instr.ctgen, .compress, .clear] → t.code = s.code
  cur : i ∉ [Instr.pdec, .decompress] → t.cur = s.cur
  treeFlags : i ∉ [Instr.tbuild, .tdec, .compress, .decompress, .clear] →
    t.treeValid = s.treeValid ∧ t.treeSrc = s.treeSrc
  codeValid : i ∉ [Instr.tbuild, .tdec, .ctgen, .compress, .decompress, .clear] → t.codeValid = s.codeValid
  error : i ∈ [Instr.nop, .fcount, .tbuild, .rewind, .close] → t.err = s.err ∧ t.errcode = s.errcode
  rd_bits : t.rd.bits = s.rd.bits
  rd : i ∉ [Instr.fcount, .penc, .pdec, .cmagic, .tdec, .rewind, .compress, .decompress] → t.rd = s.rd
  wr_grows : ∃ more : Bits, t.wr.bits = s.wr.bits ++ more
  wr_of_closed : s.wr.closed = true → t.wr = s.wr
  wr : i ∉ [Instr.wmagic, .tenc, .penc, .pdec, .close, .compress, .decompress] → t.wr = s.wr
  wr_closed : i ∉ [Instr.close, .compress, .decompress] → t.wr.closed = s.wr.closed

theorem CommandFrame.rfl {i : Instr} {s : State} : CommandFrame i s s := by constructor <;> simp

/-- A command that the gate ignores leaves everything (R217). -/
theorem CommandFrame.gate {i : Instr} {s : State} {body : State → State}
    (h : s.err = false → CommandFrame i s (body s)) : CommandFrame i s (s.gate body) := by
  cases herr : s.err with
  | true => rw [State.gate_of_err herr]; exact .rfl
  | false => rw [State.gate_of_ok herr]; exact h herr

section
variable (p : Params) (s : State)

theorem fcount_frame : CommandFrame .fcount s (fcount p s) := by
  rw [fcount_eq]
  constructor <;> simp

theorem tbuild_frame : CommandFrame .tbuild s (tbuild p s) := by
  rw [tbuild]
  constructor <;> simp

theorem ctgen_frame : CommandFrame .ctgen s (ctgen s) := by
  rcases ctgen_cases s with ⟨-, -, table, h, -⟩ | ⟨e, h, -⟩
  · rw [h]; constructor <;> simp
  · rw [h]; constructor <;> simp

theorem tenc_frame : CommandFrame .tenc s (tenc s) := by
  rcases tenc_cases s with ⟨hopen, h⟩ | h
  · rw [h]; constructor <;> simp [hopen]
  · rw [h]; constructor <;> simp

theorem tdec_frame : CommandFrame .tdec s (tdec s) := by
  rcases tdec_cases s with ⟨t, rd, h, -, -, hbits, -⟩ | ⟨e, rd, h, -, hbits, -⟩
  · rw [h]; constructor <;> simp [hbits]
  · rw [h]; constructor <;> simp [hbits]

theorem penc_frame : CommandFrame .penc s (penc s) := by
  rcases penc_cases s with ⟨rd, more, e, h, -, ⟨hbits, -⟩, hopen⟩ | h
  · rw [h]; constructor <;> simp [hbits, hopen]
  · rw [h]; constructor <;> simp

theorem pdec_frame : CommandFrame .pdec s (pdec s) := by
  rcases pdec_cases s with ⟨cur, rd, more, e, h, -, ⟨hbits, -⟩, hopen⟩ | h
  · rw [h]; constructor <;> simp [hbits, hopen]
  · rw [h]; constructor <;> simp

theorem wmagic_frame : CommandFrame .wmagic s (wmagic p s) := by
  rcases wmagic_cases p s with ⟨hopen, h⟩ | h
  · rw [h]; constructor <;> simp [hopen]
  · rw [h]; constructor <;> simp

theorem cmagic_frame : CommandFrame .cmagic s (cmagic p s) := by
  obtain ⟨rd, e, h, -, hbits, -⟩ := cmagic_cases p s
  rw [h]; constructor <;> simp [hbits]

theorem rewind_frame : CommandFrame .rewind s (rewind s) := by
  rw [rewind]
  constructor <;> simp

theorem WritePort.close_grows (padBit : Bool) (wr : WritePort) : ∃ more, (wr.close padBit).bits = wr.bits ++ more := by
  cases hc : wr.closed with
  | true => exact ⟨[], by rw [WritePort.close_of_closed padBit hc, List.append_nil]⟩
  | false => exact ⟨_, by rw [WritePort.close_of_open padBit hc, padded]⟩

theorem closeWr_frame : CommandFrame .close s (closeWr p s) := by
  rw [closeWr]
  constructor <;> simp +contextual [WritePort.close_grows, WritePort.close_of_closed]

theorem clear_frame : CommandFrame .clear s s.cleared := by constructor <;> simp

/-- COMPRESS by its closed form, in which only the tables and the ports are written (R198). -/
theorem compress_frame (herr : s.err = false) : CommandFrame .compress s (compress p s) := by
  cases hc : s.wr.closed with
  | true => rw [compress_of_closed hc]; constructor <;> simp
  | false =>
    obtain ⟨t, table, -, -, hsteps⟩ := compressSteps_eq p herr hc
    rw [compress_of_open hc, hsteps, closeWr, WritePort.close_of_open _ (by exact hc), padded]
    constructor <;> simp [hc]

end

/-- What every step of DECOMPRESS, its closing of WR included, leaves or only adds to. -/
structure DecompressFrame (s t : State) : Prop where
  host : t.host = s.host
  freq : t.freq = s.freq
  code : t.code = s.code
  rd_bits : t.rd.bits = s.rd.bits
  wr_grows : ∃ more : Bits, t.wr.bits = s.wr.bits ++ more

theorem DecompressFrame.rfl {s : State} : DecompressFrame s s := ⟨Eq.refl _, Eq.refl _, Eq.refl _, Eq.refl _, [], by simp⟩

theorem DecompressFrame.trans {a b c : State} (hab : DecompressFrame a b) (hbc : DecompressFrame b c) :
    DecompressFrame a c where
  host := hbc.host.trans hab.host
  freq := hbc.freq.trans hab.freq
  code := hbc.code.trans hab.code
  rd_bits := hbc.rd_bits.trans hab.rd_bits
  wr_grows := by
    obtain ⟨more, hmore⟩ := hab.wr_grows
    obtain ⟨more', hmore'⟩ := hbc.wr_grows
    exact ⟨more ++ more', by rw [hmore', hmore, List.append_assoc]⟩

theorem CommandFrame.decompressFrame {i : Instr} {s t : State} (h : CommandFrame i s t)
    (hi : i ∈ [Instr.cmagic, .tdec, .pdec, .close]) : DecompressFrame s t where
  host := h.host
  freq := h.freq ((by decide : ∀ j ∈ [Instr.cmagic, .tdec, .pdec, .close], j ∉ [Instr.fcount, .compress, .clear]) i hi)
  code := h.code ((by decide : ∀ j ∈ [Instr.cmagic, .tdec, .pdec, .close], j ∉ [Instr.ctgen, .compress, .clear]) i hi)
  rd_bits := h.rd_bits
  wr_grows := h.wr_grows

theorem decompressSteps_frame (p : Params) (s : State) : DecompressFrame s (decompressSteps p s) := by
  have hcmagic := (cmagic_frame p s).decompressFrame (by simp)
  have htdec := (CommandFrame.gate (s := cmagic p s) fun _ => tdec_frame _).decompressFrame (by simp)
  have hpdec := (CommandFrame.gate (s := (cmagic p s).gate tdec) fun _ => pdec_frame _).decompressFrame (by simp)
  exact (hcmagic.trans htdec).trans hpdec

theorem decompress_frame (p : Params) (s : State) : CommandFrame .decompress s (decompress p s) := by
  cases hc : s.wr.closed with
  | true => rw [decompress_of_closed hc]; constructor <;> simp
  | false =>
    have h := (decompressSteps_frame p s).trans ((closeWr_frame p _).decompressFrame (by simp))
    rw [decompress_of_open hc]
    constructor <;> simp [hc, h.host, h.freq, h.code, h.rd_bits, h.wr_grows]

/-- Every command keeps its frame, whatever its outcome. -/
theorem exec_frame {i : Instr} {s t : State} (h : exec i s = .next t) : CommandFrame i s t := by
  cases i with
  | nop => cases h; exact .rfl
  | fcount => cases h; exact .gate fun _ => fcount_frame params s
  | tbuild => cases h; exact .gate fun _ => tbuild_frame params s
  | ctgen => cases h; exact .gate fun _ => ctgen_frame s
  | tenc => cases h; exact .gate fun _ => tenc_frame s
  | tdec => cases h; exact .gate fun _ => tdec_frame s
  | penc => cases h; exact .gate fun _ => penc_frame s
  | pdec => cases h; exact .gate fun _ => pdec_frame s
  | wmagic => cases h; exact .gate fun _ => wmagic_frame params s
  | cmagic => cases h; exact .gate fun _ => cmagic_frame params s
  | rewind => cases h; exact .gate fun _ => rewind_frame s
  | close => cases h; exact closeWr_frame params s
  | compress => cases h; exact .gate fun herr => compress_frame params s herr
  | decompress => cases h; exact .gate fun _ => decompress_frame params s
  | clear => cases h; exact clear_frame s

/-- Settles O43: the part of each command's frame that speaks of the tables, the flags and the pointer. -/
theorem tablesFrame : Obligations.TablesFrame := fun _ _ _ h =>
  have hframe := exec_frame h
  ⟨hframe.host, hframe.freq, hframe.tree, hframe.code, hframe.cur, hframe.treeFlags, hframe.codeValid, hframe.error⟩

/-- Settles O44: the part of each command's frame that speaks of the ports. -/
theorem portsFrame : Obligations.PortsFrame := fun _ _ _ h =>
  have hframe := exec_frame h
  ⟨hframe.rd_bits, hframe.rd, hframe.wr_grows, hframe.wr_of_closed, hframe.wr, hframe.wr_closed⟩

/-! ### Errors -/

/-- As whom a command raises (R216). -/
def raiserOf (i : Instr) : Raiser :=
  match i with
  | .tdec => .tdec
  | .ctgen => .ctgen
  | _ => .other

theorem raiserOf_of_ne {i : Instr} (htdec : i ≠ .tdec) (hctgen : i ≠ .ctgen) : raiserOf i = .other := by
  unfold raiserOf
  split
  · exact absurd rfl htdec
  · exact absurd rfl hctgen
  · rfl

/-- The tables, their flags and the host's side are the same. -/
structure State.SameTables (b s : State) : Prop where
  freq : b.freq = s.freq
  code : b.code = s.code
  tree : b.tree = s.tree
  treeSrc : b.treeSrc = s.treeSrc
  treeValid : b.treeValid = s.treeValid
  codeValid : b.codeValid = s.codeValid
  host : b.host = s.host

/-- How a run from `s` ends in `t`: with the error as it was, or by raising one of `es`, the tables not yet written. -/
def EndsRaising (who : Raiser) (es : List Error) (s t : State) : Prop :=
  (t.err = s.err ∧ t.errcode = s.errcode) ∨ ∃ e ∈ es, ∃ b : State, b.SameTables s ∧ t = b.raise who e

namespace State.SameTables

variable {b s : State}

theorem rfl : s.SameTables s := ⟨Eq.refl _, Eq.refl _, Eq.refl _, Eq.refl _, Eq.refl _, Eq.refl _, Eq.refl _⟩

theorem setRd (h : b.SameTables s) (rd : ReadPort) : (b.setRd rd).SameTables s :=
  ⟨h.freq, h.code, h.tree, h.treeSrc, h.treeValid, h.codeValid, h.host⟩

theorem setWr (h : b.SameTables s) (wr : WritePort) : (b.setWr wr).SameTables s :=
  ⟨h.freq, h.code, h.tree, h.treeSrc, h.treeValid, h.codeValid, h.host⟩

theorem setCur (h : b.SameTables s) (t : HuffTree) : (b.setCur t).SameTables s :=
  ⟨h.freq, h.code, h.tree, h.treeSrc, h.treeValid, h.codeValid, h.host⟩

end State.SameTables

theorem EndsRaising.endWith {s b : State} (hb : b.SameTables s) (herr : b.err = s.err) (hcode : b.errcode = s.errcode)
    {who : Raiser} {e : Option Error} {es : List Error} (he : ∀ x, e = some x → x ∈ es) :
    EndsRaising who es s (b.endWith who e) := by
  cases e with
  | none => exact Or.inl ⟨herr, hcode⟩
  | some x => exact Or.inr ⟨x, he x rfl, b, hb, rfl⟩

/-- A refusal for a precondition (R219). -/
theorem EndsRaising.sequence (s : State) {es : List Error} (h : .sequence ∈ es) :
    EndsRaising .other es s (s.raise .other .sequence) := Or.inr ⟨_, h, s, .rfl, Eq.refl _⟩

section
variable (p : Params) (s : State)

theorem ctgen_endsRaising : EndsRaising .ctgen (mayRaise .ctgen) s (ctgen s) := by
  rcases ctgen_cases s with ⟨-, -, table, h, -⟩ | ⟨e, h, he⟩
  · exact Or.inl ⟨by simp [h], by simp [h]⟩
  · exact Or.inr ⟨e, by simpa [mayRaise] using he, s, .rfl, h⟩

theorem tenc_endsRaising : EndsRaising .other (mayRaise .tenc) s (tenc s) := by
  rcases tenc_cases s with ⟨-, h⟩ | h
  · exact Or.inl ⟨by simp [h], by simp [h]⟩
  · rw [h]; exact .sequence s (by simp [mayRaise])

theorem tdec_endsRaising : EndsRaising .tdec (mayRaise .tdec) s (tdec s) := by
  rcases tdec_cases s with ⟨t, rd, h, -⟩ | ⟨e, rd, h, he, -⟩
  · exact Or.inl ⟨by simp [h], by simp [h]⟩
  · exact Or.inr ⟨e, by simpa [mayRaise] using he, _, .setRd .rfl rd, h⟩

theorem penc_endsRaising : EndsRaising .other (mayRaise .penc) s (penc s) := by
  rcases penc_cases s with ⟨rd, more, e, h, he, -⟩ | h
  · rw [h]
    refine .endWith (.setWr (.setRd .rfl rd) _) rfl rfl ?_
    rcases he with rfl | rfl <;> simp [mayRaise]
  · rw [h]; exact .sequence s (by simp [mayRaise])

theorem pdec_endsRaising : EndsRaising .other (mayRaise .pdec) s (pdec s) := by
  rcases pdec_cases s with ⟨cur, rd, more, e, h, he, -⟩ | h
  · rw [h]
    refine .endWith (.setWr (.setRd (.setCur .rfl cur) rd) _) rfl rfl ?_
    rcases he with rfl | rfl | rfl <;> simp [mayRaise]
  · rw [h]; exact .sequence s (by simp [mayRaise])

theorem wmagic_endsRaising : EndsRaising .other (mayRaise .wmagic) s (wmagic p s) := by
  rcases wmagic_cases p s with ⟨-, h⟩ | h
  · exact Or.inl ⟨by simp [h], by simp [h]⟩
  · rw [h]; exact .sequence s (by simp [mayRaise])

theorem cmagic_endsRaising : EndsRaising .other (mayRaise .cmagic) s (cmagic p s) := by
  obtain ⟨rd, e, h, he, -⟩ := cmagic_cases p s
  rw [h]
  refine .endWith (.setRd .rfl rd) rfl rfl ?_
  rcases he with rfl | rfl <;> simp [mayRaise]

/-- COMPRESS raises where WR is closed and only there (R198). -/
theorem compress_endsRaising (herr : s.err = false) : EndsRaising .other (mayRaise .compress) s (compress p s) := by
  cases hc : s.wr.closed with
  | true => rw [compress_of_closed hc]; exact .sequence s (by simp [mayRaise])
  | false =>
    obtain ⟨t, table, -, -, hsteps⟩ := compressSteps_eq p herr hc
    rw [compress_of_open hc, hsteps, closeWr]
    exact Or.inl ⟨by simp, by simp⟩

end

/-- Every command but CLEAR and DECOMPRESS raises, if at all, before it writes a table (R214, R216). -/
theorem exec_endsRaising {i : Instr} {s t : State} (herr : s.err = false) (h : exec i s = .next t) (hclear : i ≠ .clear)
    (hdecompress : i ≠ .decompress) : EndsRaising (raiserOf i) (mayRaise i) s t := by
  cases i with
  | nop => cases h; exact Or.inl ⟨rfl, rfl⟩
  | fcount => exact Or.inl ((exec_frame h).error (by simp))
  | tbuild => exact Or.inl ((exec_frame h).error (by simp))
  | ctgen => cases h; rw [State.gate_of_ok herr]; exact ctgen_endsRaising s
  | tenc => cases h; rw [State.gate_of_ok herr]; exact tenc_endsRaising s
  | tdec => cases h; rw [State.gate_of_ok herr]; exact tdec_endsRaising s
  | penc => cases h; rw [State.gate_of_ok herr]; exact penc_endsRaising s
  | pdec => cases h; rw [State.gate_of_ok herr]; exact pdec_endsRaising s
  | wmagic => cases h; rw [State.gate_of_ok herr]; exact wmagic_endsRaising params s
  | cmagic => cases h; rw [State.gate_of_ok herr]; exact cmagic_endsRaising params s
  | rewind => exact Or.inl ((exec_frame h).error (by simp))
  | close => exact Or.inl ((exec_frame h).error (by simp))
  | compress => cases h; rw [State.gate_of_ok herr]; exact compress_endsRaising params s herr
  | decompress => exact absurd rfl hdecompress
  | clear => exact absurd rfl hclear

/-- How DECOMPRESS ends: without an error, or as whichever of its steps raised (R199). -/
def DecompressEnds (s t : State) : Prop :=
  (t.err = false ∧ t.errcode = s.errcode) ∨ (∃ e ∈ mayRaise .tdec, ∃ b : State, t = b.raise .tdec e) ∨
    ∃ e ∈ [Error.format, .truncatedPayload, .sequence, .illFormedTree], ∃ b : State, t = b.raise .other e

theorem decompressSteps_ends (p : Params) {s : State} (herr : s.err = false) : DecompressEnds s (decompressSteps p s) := by
  rw [decompressSteps]
  rcases cmagic_endsRaising p s with ⟨herr1, hcode1⟩ | ⟨e, he, b, -, h⟩
  · rw [herr] at herr1
    rw [State.gate_of_ok herr1]
    rcases tdec_endsRaising (cmagic p s) with ⟨herr2, hcode2⟩ | ⟨e, he, b, -, h⟩
    · rw [herr1] at herr2
      rw [State.gate_of_ok herr2]
      rcases pdec_endsRaising (tdec (cmagic p s)) with ⟨herr3, hcode3⟩ | ⟨e, he, b, -, h⟩
      · exact Or.inl ⟨herr3.trans herr2, hcode3.trans (hcode2.trans hcode1)⟩
      · exact Or.inr (Or.inr ⟨e, List.mem_cons_of_mem _ he, b, h⟩)
    · rw [h, State.gate_of_err rfl]
      exact Or.inr (Or.inl ⟨e, he, b, rfl⟩)
  · rw [h, State.gate_of_err rfl, State.gate_of_err rfl]
    obtain rfl : e = .format := by simpa [mayRaise] using he
    exact Or.inr (Or.inr ⟨_, List.mem_cons_self, b, rfl⟩)

theorem decompress_ends (p : Params) {s : State} (herr : s.err = false) : DecompressEnds s (decompress p s) := by
  cases hc : s.wr.closed with
  | true =>
    rw [decompress_of_closed hc]
    exact Or.inr (Or.inr ⟨.sequence, by simp, s, rfl⟩)
  | false =>
    rw [decompress_of_open hc]
    rcases decompressSteps_ends p herr with hok | ⟨e, he, b, h⟩ | ⟨e, he, b, h⟩
    · exact Or.inl hok
    · exact Or.inr (Or.inl ⟨e, he, closeWr p b, by rw [h]; rfl⟩)
    · exact Or.inr (Or.inr ⟨e, he, closeWr p b, by rw [h]; rfl⟩)

theorem mem_mayRaise_decompress_of_tdec : ∀ e ∈ mayRaise .tdec, e ∈ mayRaise .decompress := by decide

theorem mem_mayRaise_decompress_of_other :
    ∀ e ∈ [Error.format, .truncatedPayload, .sequence, .illFormedTree], e ∈ mayRaise .decompress := by decide

/-- Settles O40: a raising command's error is one that one of its own refusals, or one of its steps, can raise. -/
theorem errorsPerCommand : Obligations.ErrorsPerCommand := by
  unfold Obligations.ErrorsPerCommand
  intro i s t herr h
  by_cases hclear : i = .clear
  · subst hclear; cases h
    exact Or.inr (Or.inl ⟨rfl, rfl, rfl⟩)
  by_cases hdecompress : i = .decompress
  · subst hdecompress; cases h
    rw [State.gate_of_ok herr]
    rcases decompress_ends params herr with hok | ⟨e, he, b, hraise⟩ | ⟨e, he, b, hraise⟩
    · exact Or.inl hok
    · exact Or.inr (Or.inr (hraise ▸ ⟨rfl, e, mem_mayRaise_decompress_of_tdec e he, rfl⟩))
    · exact Or.inr (Or.inr (hraise ▸ ⟨rfl, e, mem_mayRaise_decompress_of_other e he, rfl⟩))
  rcases exec_endsRaising herr h hclear hdecompress with ⟨herr', hcode⟩ | ⟨e, he, b, -, rfl⟩
  · exact Or.inl ⟨herr'.trans herr, hcode⟩
  · exact Or.inr (Or.inr ⟨rfl, e, he, rfl⟩)

/-- Codes 2 and 5 are raised by TDEC alone (R211, R214). -/
theorem code_ne_two_and_ne_five_of_other :
    ∀ e ∈ [Error.format, .truncatedPayload, .sequence, .illFormedTree], ¬ (e.code = 2#4 ∨ e.code = 5#4) := by decide

/-- A raising DECOMPRESS leaves WR closed, and no tree where it was TDEC that raised (R216). -/
theorem decompress_raised (p : Params) {s : State} (herr : s.err = false) (hraised : (decompress p s).err = true) :
    (decompress p s).wr.closed = true ∧ ((decompress p s).errcode = 2#4 ∨ (decompress p s).errcode = 5#4 →
      (decompress p s).treeValid = false ∧ (decompress p s).codeValid = false) := by
  refine ⟨?_, fun hcode => ?_⟩
  · cases hc : s.wr.closed with
    | true => rw [decompress_of_closed hc]; exact hc
    | false => rw [decompress_of_open hc]; exact WritePort.close_closed _ _
  · rcases decompress_ends p herr with ⟨hok, -⟩ | ⟨e, -, b, h⟩ | ⟨e, he, b, h⟩
    · rw [hok] at hraised; cases hraised
    · rw [h]; exact ⟨rfl, rfl⟩
    · rw [h, State.raise_errcode] at hcode
      exact absurd hcode (code_ne_two_and_ne_five_of_other e he)

/-- Settles O41: an error entry writes the flags R216 names, and the tables were not written before it. -/
theorem errorEntryLeaves : Obligations.ErrorEntryLeaves := by
  unfold Obligations.ErrorEntryLeaves
  intro i s t herr h hraised
  have hframe := exec_frame h
  by_cases hclear : i = .clear
  · subst hclear; cases h; cases hraised
  by_cases hdecompress : i = .decompress
  · subst hdecompress; cases h
    rw [State.gate_of_ok herr] at hraised hframe ⊢
    obtain ⟨hclosed, hvalid⟩ := decompress_raised params herr hraised
    refine ⟨by simp, by simp, fun _ => hclosed, fun _ => hvalid, by simp, by simp, hframe.freq (by simp),
      hframe.code (by simp), hframe.host⟩
  rcases exec_endsRaising herr h hclear hdecompress with ⟨herr', -⟩ | ⟨e, -, b, hb, rfl⟩
  · rw [herr', herr] at hraised; cases hraised
  · refine ⟨?_, ?_, fun hi => absurd hi hdecompress, fun hi => absurd hi hdecompress, fun _ => ⟨hb.tree, hb.treeSrc⟩,
      ?_, hb.freq, hb.code, hb.host⟩
    · rintro rfl; exact ⟨rfl, rfl⟩
    · rintro rfl; exact ⟨rfl, hb.treeValid⟩
    · intro htdec hctgen _
      rw [raiserOf_of_ne htdec hctgen]; exact ⟨hb.treeValid, hb.codeValid⟩

/-! ### Stale code tables -/

/-- PENC without a valid table: refused, or ignored under an error (R162, R217). -/
theorem exec_penc_of_stale {t : State} (h : t.codeValid = false) :
    exec .penc t = .next (if t.err then t else { t with err := true, errcode := 4#4 }) := by
  rw [exec_penc]
  cases herr : t.err with
  | true => rw [State.gate_of_err herr]; rfl
  | false => rw [State.gate_of_ok herr, penc_of_refused (Or.inl h)]; rfl

theorem tdec_codeValid (s : State) : (tdec s).codeValid = false := by
  rcases tdec_cases s with ⟨t, rd, h, -⟩ | ⟨e, rd, h, -⟩
  · rw [h]; rfl
  · rw [h]; rfl

/-- Settles O42: both commands that write TREE clear CODE_VALID, however they end. -/
theorem staleTableRefused : Obligations.StaleTableRefused := by
  unfold Obligations.StaleTableRefused
  intro i s t hi herr h
  refine exec_penc_of_stale ?_
  rcases hi with rfl | rfl
  · cases h; rw [State.gate_of_ok herr]; rfl
  · cases h; rw [State.gate_of_ok herr]; exact tdec_codeValid s

end Sys2Proof.Machine
end

section
/-!
PROOFS of the invariant (spec/60_exceptions.md R222): it holds after reset, every named update keeps it, and so does every
command and every access of the host.
-/

namespace Sys2Proof.Machine

open Sys2Proof.Config

/-- Settles O45: after reset nothing is valid, the tables are empty and no port has been used. -/
theorem invariantAtReset : Obligations.InvariantAtReset where
  errcode_iff := by decide
  errcode_le := by decide
  code_of_tree := nofun
  nodes_le := nofun
  built := nofun
  decoded := nofun
  counts := countsFit_zero params
  code_length := fun i c hc => by rw [State.reset_code, codeAbsent_get] at hc; cases hc
  rd_wf := ⟨Nat.le_refl _, rfl⟩
  wr_wf := nofun

/-! ### The updates -/

theorem Error.code_ne_zero (e : Error) : e.code ≠ 0#4 := by cases e <;> decide

theorem Error.code_le (e : Error) : e.code ≤ 8#4 := by cases e <;> decide

theorem Raiser.keepsTree_of_keepsCode {who : Raiser} (h : who.keepsCode = true) : who.keepsTree = true := by
  cases who <;> trivial

/-- A code of a tree that fits the tree store has at most 256 bits (R34). -/
theorem isCodeTableOf_length_le {code : CodeTable} {t : HuffTree} (h : isCodeTableOf code t) (hn : t.nodes ≤ nodeCap)
    {i : Fin 257} {c : Bits} (hc : code[i.val]'i.isLt = some c) : c.length ≤ 256 := by
  obtain ⟨-, -, -, hcodes⟩ := storedTreeBounds t hn
  exact hcodes _ c ((h i).symm.trans hc)

theorem codeAbsent_length {i : Fin 257} {c : Bits} (hc : codeAbsent[i.val]'i.isLt = some c) : c.length ≤ 256 := by
  rw [codeAbsent_get] at hc; cases hc

theorem Huff.nodes_le {f : FreqTable} {t : HuffTree} (h : Huff f t) : t.nodes ≤ nodeCap :=
  HuffTree.nodes_le_of_wellFormed h.wellFormed

/-- A host write keeps counts within `COUNT_W` bits (R25). -/
theorem freqWrite_countsFit (p : Params) {f : FreqTable} (hf : countsFit p f) (i : Fin 257) (v : Nat) :
    countsFit p (freqWrite p f i v) := by
  intro k
  unfold freqWrite
  split
  · rw [Vector.getElem_set]
    split
    · exact Nat.mod_lt _ (Nat.two_pow_pos _)
    · exact hf k
  · exact hf k

namespace State.Inv

variable {p : Params} {s : State}

theorem setRd (h : s.Inv p) {rd : ReadPort} (hrd : rd.wf) : (s.setRd rd).Inv p := { h with rd_wf := hrd }

theorem setWr (h : s.Inv p) {wr : WritePort} (hwr : wr.wf) : (s.setWr wr).Inv p := { h with wr_wf := hwr }

theorem setFreq (h : s.Inv p) {f : FreqTable} (hf : countsFit p f) : (s.setFreq f).Inv p := { h with counts := hf }

theorem setCur (h : s.Inv p) (t : HuffTree) : (s.setCur t).Inv p := { h with }

theorem setHost (h : s.Inv p) (host : HostSide) : (s.setHost host).Inv p := { h with }

theorem setCode (h : s.Inv p) {table : CodeTable} (hv : s.treeValid = true) (hw : s.tree.wellFormed = true)
    (htable : isCodeTableOf table s.tree) : (s.setCode table).Inv p :=
  { h with
    code_of_tree := fun _ => ⟨hv, hw, htable⟩
    code_length := fun _ _ hc => isCodeTableOf_length_le htable (h.nodes_le hv) hc }

theorem setTree_tbuild (h : s.Inv p) {t : HuffTree} (ht : Huff s.freq t) : (s.setTree .tbuild t).Inv p :=
  { h with
    code_of_tree := nofun
    nodes_le := fun _ => ht.nodes_le
    built := fun _ _ => ⟨s.freq, h.counts, ht⟩
    decoded := nofun }

theorem setTree_tdec (h : s.Inv p) {t : HuffTree} (hn : t.nodes ≤ nodeCap) (ht : t.unweighted = t) :
    (s.setTree .tdec t).Inv p :=
  { h with
    code_of_tree := nofun
    nodes_le := fun _ => hn
    built := nofun
    decoded := fun _ _ => ht }

/-- An error entry clears valid flags and sets none (R216). -/
theorem raise (h : s.Inv p) (who : Raiser) (e : Error) : (s.raise who e).Inv p := by
  have htree : (s.raise who e).treeValid = true → s.treeValid = true := fun hv => (Bool.and_eq_true_iff.mp hv).2
  refine
    { h with
      errcode_iff := ⟨fun _ => rfl, fun _ => e.code_ne_zero⟩
      errcode_le := e.code_le
      code_of_tree := fun hv => ?_
      nodes_le := fun hv => h.nodes_le (htree hv)
      built := fun hv => h.built (htree hv)
      decoded := fun hv => h.decoded (htree hv) }
  obtain ⟨hkeeps, hcode⟩ := Bool.and_eq_true_iff.mp hv
  obtain ⟨hvalid, hwf, htable⟩ := h.code_of_tree hcode
  exact ⟨Bool.and_eq_true_iff.mpr ⟨Raiser.keepsTree_of_keepsCode hkeeps, hvalid⟩, hwf, htable⟩

theorem endWith (h : s.Inv p) (who : Raiser) (e : Option Error) : (s.endWith who e).Inv p := by
  cases e with
  | none => exact h
  | some e => exact h.raise who e

theorem cleared (h : s.Inv p) : s.cleared.Inv p :=
  { h with
    errcode_iff := invariantAtReset.errcode_iff
    errcode_le := invariantAtReset.errcode_le
    code_of_tree := nofun
    nodes_le := nofun
    built := nofun
    decoded := nofun
    counts := countsFit_zero p
    code_length := fun _ _ hc => codeAbsent_length hc }

theorem gate (h : s.Inv p) {body : State → State} (hbody : (body s).Inv p) : (s.gate body).Inv p := by
  cases herr : s.err with
  | true => rwa [State.gate_of_err herr]
  | false => rwa [State.gate_of_ok herr]

/-! ### The commands -/

theorem fcount (h : s.Inv p) : (fcount p s).Inv p := by
  obtain ⟨f, rd, heq, hf, -, hrd⟩ := fcount_cases p s
  rw [heq]
  exact (h.setFreq hf).setRd (hrd h.rd_wf)

theorem tbuild (h : s.Inv p) : (tbuild p s).Inv p := h.setTree_tbuild (huff_buildTree _ _)

theorem ctgen (h : s.Inv p) : (ctgen s).Inv p := by
  rcases ctgen_cases s with ⟨hv, hw, table, heq, htable⟩ | ⟨e, heq, -⟩
  · rw [heq]; exact h.setCode hv hw htable
  · rw [heq]; exact h.raise _ e

theorem tenc (h : s.Inv p) : (tenc s).Inv p := by
  rcases tenc_cases s with ⟨hopen, heq⟩ | heq
  · rw [heq]; exact h.setWr (WritePort.writeSeq_wf _ hopen)
  · rw [heq]; exact h.raise _ _

theorem tdec (h : s.Inv p) : (tdec s).Inv p := by
  rcases tdec_cases s with ⟨t, rd, heq, hunweighted, hn, -, hrd⟩ | ⟨e, rd, heq, -, -, hrd⟩
  · rw [heq]; exact (h.setRd (hrd h.rd_wf)).setTree_tdec hn hunweighted
  · rw [heq]; exact (h.setRd (hrd h.rd_wf)).raise _ e

theorem penc (h : s.Inv p) : (penc s).Inv p := by
  rcases penc_cases s with ⟨rd, more, e, heq, -, ⟨-, hrd⟩, hopen⟩ | heq
  · rw [heq]; exact ((h.setRd (hrd h.rd_wf)).setWr (WritePort.writeSeq_wf more hopen)).endWith _ e
  · rw [heq]; exact h.raise _ _

theorem pdec (h : s.Inv p) : (pdec s).Inv p := by
  rcases pdec_cases s with ⟨cur, rd, more, e, heq, -, ⟨-, hrd⟩, hopen⟩ | heq
  · rw [heq]; exact (((h.setCur cur).setRd (hrd h.rd_wf)).setWr (WritePort.writeSeq_wf more hopen)).endWith _ e
  · rw [heq]; exact h.raise _ _

theorem wmagic (h : s.Inv p) : (wmagic p s).Inv p := by
  rcases wmagic_cases p s with ⟨hopen, heq⟩ | heq
  · rw [heq]; exact h.setWr (WritePort.writeSeq_wf _ hopen)
  · rw [heq]; exact h.raise _ _

theorem cmagic (h : s.Inv p) : (cmagic p s).Inv p := by
  obtain ⟨rd, e, heq, -, -, hrd⟩ := cmagic_cases p s
  rw [heq]
  exact (h.setRd (hrd h.rd_wf)).endWith _ e

theorem rewind (h : s.Inv p) : (rewind s).Inv p := h.setRd (ReadPort.rewound_wf h.rd_wf)

theorem closeWr (h : s.Inv p) : (closeWr p s).Inv p := h.setWr (WritePort.close_wf _ h.wr_wf)

theorem compressSteps (h : s.Inv p) : (compressSteps p s).Inv p := by
  have hcounted : (Machine.rewind (Machine.fcount p (Machine.rewind s))).Inv p := h.rewind.fcount.rewind
  have hbuilt := hcounted.gate hcounted.tbuild
  have hcode := hbuilt.gate hbuilt.ctgen
  have hmagic := hcode.gate hcode.wmagic
  have hheader := hmagic.gate hmagic.tenc
  exact hheader.gate hheader.penc

theorem compress (h : s.Inv p) : (compress p s).Inv p := by
  cases hc : s.wr.closed with
  | true => rw [compress_of_closed hc]; exact h.raise _ _
  | false => rw [compress_of_open hc]; exact h.compressSteps.closeWr

theorem decompressSteps (h : s.Inv p) : (decompressSteps p s).Inv p :=
  (h.cmagic.gate h.cmagic.tdec).gate (h.cmagic.gate h.cmagic.tdec).pdec

theorem decompress (h : s.Inv p) : (decompress p s).Inv p := by
  cases hc : s.wr.closed with
  | true => rw [decompress_of_closed hc]; exact h.raise _ _
  | false => rw [decompress_of_open hc]; exact h.decompressSteps.closeWr

/-- Every command keeps the invariant, whatever its outcome (R222). -/
theorem exec {i : Instr} {t : State} (h : s.Inv params) (ht : exec i s = .next t) : t.Inv params := by
  cases i with
  | nop => cases ht; exact h
  | fcount => cases ht; exact h.gate h.fcount
  | tbuild => cases ht; exact h.gate h.tbuild
  | ctgen => cases ht; exact h.gate h.ctgen
  | tenc => cases ht; exact h.gate h.tenc
  | tdec => cases ht; exact h.gate h.tdec
  | penc => cases ht; exact h.gate h.penc
  | pdec => cases ht; exact h.gate h.pdec
  | wmagic => cases ht; exact h.gate h.wmagic
  | cmagic => cases ht; exact h.gate h.cmagic
  | rewind => cases ht; exact h.gate h.rewind
  | close => cases ht; exact h.closeWr
  | compress => cases ht; exact h.gate h.compress
  | decompress => cases ht; exact h.gate h.decompress
  | clear => cases ht; exact h.cleared

/-- Every access of the host keeps the invariant (R41). -/
theorem hostAccess (h : s.Inv p) (a : HostAccess) : (s.hostAccess p a).Inv p := by
  cases a with
  | attachRd bytes => exact h.setRd (ReadPort.attached_wf bytes)
  | attachWr => exact h.setWr WritePort.attached_wf
  | writeFreq i v => exact h.setFreq (freqWrite_countsFit p h.counts i v)
  | writeStatus v => exact h
  | writeErrcode v => exact h
  | read e => exact h.setHost _
  | reset => exact h.cleared

end State.Inv

/-- Settles O46: a step is a command, an illegal word or an access in a state that differs in the script alone. -/
theorem stepKeepsInvariant : Obligations.StepKeepsInvariant := by
  unfold Obligations.StepKeepsInvariant
  intro s t h hstep
  have hadvance : s.advance.Inv Config.params := h.setHost _
  rcases step_cases hstep with ⟨-, rfl⟩ | ⟨w, rest, i, -, -, hexec⟩ | ⟨w, rest, e, -, -, rfl⟩ | ⟨a, rest, -, rfl⟩
  · exact h
  · exact hadvance.exec hexec
  · exact hadvance.gate (hadvance.raise _ _)
  · exact hadvance.hostAccess a

end Sys2Proof.Machine
end

section
/-!
PROOFS of what a step takes off the host's script and does (spec/10_state.md section 5, spec/30_encoding.md section 1), and of
the gate and the stickiness of ERR (spec/60_exceptions.md R217, R220).
-/

namespace Sys2Proof.Machine

open Sys2Proof.Config

/-! ### Bits and values -/

/-- The value of a bit sequence, bit by bit (R13). -/
theorem valOf_eq_sum (b : Bits) : valOf b = ∑ i : Fin b.length, (b[i.val]).toNat * 2 ^ (b.length - 1 - i.val) := by
  induction b with
  | nil => rfl
  | cons x b ih =>
    have hsplit := Fin.sum_univ_succ fun i : Fin (b.length + 1) => ((x :: b)[i.val]).toNat * 2 ^ (b.length - i.val)
    rw [valOf_cons, ih]
    refine Eq.trans ?_ hsplit.symm
    congr 1
    refine Finset.sum_congr rfl fun i _ => ?_
    simp only [Fin.val_succ, List.getElem_cons_succ]
    congr 2
    omega

/-- Settles O13: bit `i` from the front is bit `n - 1 - i` of the value, and spelling and reading are inverse. -/
theorem bitsAndValuesInverse : Obligations.BitsAndValuesInverse := by
  unfold Obligations.BitsAndValuesInverse
  refine ⟨fun n v => ⟨length_bitsOf v, fun i hi => ?_, valOf_bitsOf v⟩, valOf_eq_sum, fun b => bitsOf_valOf rfl⟩
  have hlen : i < (bitsOf v).length := by simpa using hi
  rw [List.getElem?_eq_getElem hlen, getElem_bitsOf, BitVec.getMsbD_eq_getLsbD]
  simp [hi]

/-! ### Command words -/

/-- The operation number a command is selected by is its word's value (R76). -/
theorem toNat_encode_of_decodeOperation {op : Nat} {i : Instr} (h : decodeOperation op = .ok i) :
    (encode i).toNat = op := by
  have hop : op < 15 := (exists_decodeOperation_eq_ok_iff op).mp ⟨i, h⟩
  interval_cases op <;> cases h <;> rfl

theorem toNat_low_nibble {w : Byte} (h : w.extractLsb' 4 4 = 0#4) : (w.extractLsb' 0 4).toNat = w.toNat := by
  have hhigh := congrArg BitVec.toNat h
  simp only [BitVec.extractLsb'_toNat, Nat.shiftRight_eq_div_pow, BitVec.toNat_ofNat] at hhigh ⊢
  omega

/-- A word that decodes is the word of its command (R76, R78). -/
theorem encode_of_decode {w : Byte} {i : Instr} (h : decode w = .ok i) : encode i = w := by
  obtain ⟨hhigh, -⟩ := (exists_decode_eq_ok_iff w).mp ⟨i, h⟩
  rw [decode_of_reservedBits_zero hhigh, toNat_low_nibble hhigh] at h
  exact BitVec.eq_of_toNat_eq (toNat_encode_of_decodeOperation h)

/-- Settles O2: the decoder inverts the encoder, and gives back only what the encoder writes. -/
theorem decodeEncodeAgree : Obligations.DecodeEncodeAgree := ⟨decode_encode, fun _ _ => encode_of_decode⟩

theorem exists_decode_eq_error_of_illegal {w : Byte} (h : w = 0x0F#8 ∨ w.extractLsb' 4 4 ≠ 0#4) :
    ∃ e, decode w = .error e := by
  rcases h with rfl | h
  · exact ⟨_, rfl⟩
  · exact ⟨_, decode_of_reservedBits_ne_zero h⟩

/-! ### Steps -/

section
variable {s : State} {w : Byte} {rest : List HostAction}

theorem step_of_empty_script (h : s.host.script = []) : step s = .next s := by simp only [step, State.fetch, h]

/-- A legal word runs its command (R219). -/
theorem step_of_decode_ok {i : Instr} (h : s.host.script = .cmd w :: rest) (hd : decode w = .ok i) :
    step s = exec i s.advance := by
  rw [step_cmd h, State.writeCmd, hd]

/-- An illegal word raises, under the gate (R77). -/
theorem step_of_decode_error {e : IllegalWord} (h : s.host.script = .cmd w :: rest) (hd : decode w = .error e) :
    step s = .next (s.advance.gate fun s => s.raise .other .illegalCommand) := by
  rw [step_cmd h, State.writeCmd, hd]

end

/-- Settles O3: taking the action off the script is what `State.advance` does. -/
theorem stepRunsDecodedCommand : Obligations.StepRunsDecodedCommand := fun _ _ _ _ h hd => by
  rw [step_of_decode_ok h hd, State.advance_eq h]

/-- Settles O4: the block waits where there is nothing to take. -/
theorem emptyScriptWaits : Obligations.EmptyScriptWaits := fun _ h => step_of_empty_script h

/-- Settles O5: the word decodes to no command, and the gate decides whether that raises. -/
theorem illegalWordRaises : Obligations.IllegalWordRaises := by
  unfold Obligations.IllegalWordRaises
  intro s w rest h hw
  obtain ⟨e, hd⟩ := exists_decode_eq_error_of_illegal hw
  rw [step_of_decode_error h hd, State.advance_eq h, State.gate]
  cases s.err <;> rfl

/-- Settles O6: an access is done in the state that `State.advance` leaves. -/
theorem stepDoesHostAccess : Obligations.StepDoesHostAccess := fun _ _ _ h => by
  rw [step_access h, State.advance_eq h]

/-! ### Host accesses -/

/-- A host write reads back on its own entry alone, and not at all on the sentinel's (R25, R26). -/
theorem freqAt_freqWrite (p : Params) (f : FreqTable) (i : Fin 257) (v : Nat) {k : Nat} (hk : k ≤ 256) :
    freqAt (freqWrite p f i v) k = if k = i.val ∧ k < 256 then v % 2 ^ p.countW else freqAt f k := by
  rcases Nat.lt_or_eq_of_le hk with hlt | rfl
  · rw [freqAt_of_lt _ hlt, freqAt_of_lt _ hlt, freqWrite]
    split
    · rw [Vector.getElem_set]
      simp only [hlt, and_true, eq_comm]
    · rw [if_neg (by omega)]
  · rw [freqAt_eos, freqAt_eos, if_neg (by omega)]

/-- Settles O8: the sentinel's count is not stored, so no table and no write says otherwise. -/
theorem freqWriteKeepsSentinel : Obligations.FreqWriteKeepsSentinel :=
  ⟨freqAt_eos, fun s i v => ⟨freqWrite params s.freq i v, rfl, fun _ hk => freqAt_freqWrite params s.freq i v hk⟩⟩

theorem statusBits_fields : ∀ closed code src tree err : Bool,
    let w : Byte := 0#3 ++ BitVec.ofBool closed ++ BitVec.ofBool code ++ BitVec.ofBool src ++ BitVec.ofBool tree ++
      BitVec.ofBool err
    w.getLsbD 0 = err ∧ w.getLsbD 1 = tree ∧ w.getLsbD 2 = src ∧ w.getLsbD 3 = code ∧ w.getLsbD 4 = closed ∧
      w.extractLsb' 5 3 = 0#3 := by decide

theorem TreeSrc.bit_eq (src : TreeSrc) : src.bit = (src == .tdec) := by cases src <;> rfl

/-- Settles O9: the word is the concatenation of its fields, and an ignored write is no update. -/
theorem statusWordLayout : Obligations.StatusWordLayout := by
  refine ⟨fun s => ?_, fun _ _ => rfl⟩
  rw [← s.treeSrc.bit_eq]
  exact statusBits_fields s.wr.closed s.codeValid s.treeSrc.bit s.treeValid s.err

theorem errcodeWord_fields : ∀ c : BitVec 4, (0#4 ++ c).extractLsb' 0 4 = c ∧ (0#4 ++ c).extractLsb' 4 4 = 0#4 := by
  decide

/-- Settles O10: the word is the concatenation of four zeros and the code, and an ignored write is no update. -/
theorem errcodeWordLayout : Obligations.ErrcodeWordLayout := ⟨fun s => errcodeWord_fields s.errcode, fun _ _ => rfl⟩

/-- Settles O11: a read puts its value into the host's side and does nothing else. -/
theorem hostReadsReturn : Obligations.HostReadsReturn := by
  unfold Obligations.HostReadsReturn
  intro s e
  refine ⟨s.hostRead e, rfl, ?_, ?_, ?_, ?_, ?_, ?_, ?_⟩
  · rintro rfl; rfl
  · rintro rfl; rfl
  · rintro rfl; rfl
  · rintro i rfl; rfl
  · rintro rfl; rfl
  · rintro i rfl; rfl
  · rintro rfl; rfl

/-- Settles O31: CLEAR writes the reset values, whatever they were, and neither TREE nor CUR nor a port. -/
theorem clearRestoresReset : Obligations.ClearRestoresReset := fun s => by
  rw [exec_clear]
  rfl

/-! ### The gate -/

/-- While ERR is set a command that the gate does not let through has no effect (R217). -/
theorem exec_of_err {s : State} (herr : s.err = true) {i : Instr} (hclose : i ≠ .close) (hclear : i ≠ .clear) :
    exec i s = .next s := by
  cases i with
  | nop => rfl
  | close => exact absurd rfl hclose
  | clear => exact absurd rfl hclear
  | fcount => exact congrArg _ (State.gate_of_err herr _)
  | tbuild => exact congrArg _ (State.gate_of_err herr _)
  | ctgen => exact congrArg _ (State.gate_of_err herr _)
  | tenc => exact congrArg _ (State.gate_of_err herr _)
  | tdec => exact congrArg _ (State.gate_of_err herr _)
  | penc => exact congrArg _ (State.gate_of_err herr _)
  | pdec => exact congrArg _ (State.gate_of_err herr _)
  | wmagic => exact congrArg _ (State.gate_of_err herr _)
  | cmagic => exact congrArg _ (State.gate_of_err herr _)
  | rewind => exact congrArg _ (State.gate_of_err herr _)
  | compress => exact congrArg _ (State.gate_of_err herr _)
  | decompress => exact congrArg _ (State.gate_of_err herr _)

/-- While ERR is set a word has no effect unless it is that of CLOSE or of CLEAR (R77, R217). -/
theorem step_of_err {s : State} {w : Byte} {rest : List HostAction} (herr : s.err = true)
    (h : s.host.script = .cmd w :: rest) (hclose : w ≠ 0x0B#8) (hclear : w ≠ 0x0E#8) : step s = .next s.advance := by
  cases hd : decode w with
  | ok i =>
    have hi : encode i = w := encode_of_decode hd
    rw [step_of_decode_ok h hd]
    refine exec_of_err (s := s.advance) herr ?_ ?_
    · rintro rfl; exact hclose hi.symm
    · rintro rfl; exact hclear hi.symm
  | error e => rw [step_of_decode_error h hd, State.gate_of_err (s := s.advance) herr]

/-- Settles O38: the gate stops every other word, and CLOSE and CLEAR have none. -/
theorem gateIgnoresCommands : Obligations.GateIgnoresCommands := by
  unfold Obligations.GateIgnoresCommands
  intro s w rest herr h
  refine ⟨fun hclose hclear => ?_, ?_, ?_⟩
  · rw [step_of_err herr h hclose hclear, State.advance_eq h]
  · rintro rfl
    rw [step_of_decode_ok h (decode_encode .close), exec_close, closeWr, State.advance_eq h]
    rfl
  · rintro rfl
    exact ⟨s.advance.cleared, step_of_decode_ok h (decode_encode .clear), rfl, rfl, rfl, rfl⟩

/-- No access of the host but the reset touches ERR and ERRCODE (R220). -/
theorem State.hostAccess_error (p : Params) (s : State) {a : HostAccess} (h : a ≠ .reset) :
    (s.hostAccess p a).err = s.err ∧ (s.hostAccess p a).errcode = s.errcode := by
  cases a with
  | attachRd bytes => exact ⟨rfl, rfl⟩
  | attachWr => exact ⟨rfl, rfl⟩
  | writeFreq i v => exact ⟨rfl, rfl⟩
  | writeStatus v => exact ⟨rfl, rfl⟩
  | writeErrcode v => exact ⟨rfl, rfl⟩
  | read e => exact ⟨rfl, rfl⟩
  | reset => exact absurd rfl h

/-- Settles O39: of what the gate lets through, and of the host's accesses, only CLEAR and the reset write ERR. -/
theorem errorsAreSticky : Obligations.ErrorsAreSticky := by
  unfold Obligations.ErrorsAreSticky
  intro s t herr hstep
  rcases step_cases hstep with ⟨-, rfl⟩ | ⟨w, rest, i, h, hd, hexec⟩ | ⟨w, rest, e, -, -, rfl⟩ | ⟨a, rest, h, rfl⟩
  · exact Or.inl ⟨herr, rfl⟩
  · by_cases hclear : i = .clear
    · have hw : encode i = w := encode_of_decode hd
      subst hclear
      exact Or.inr ⟨rest, Or.inl (by rw [h, ← hw]; rfl)⟩
    by_cases hclose : i = .close
    · subst hclose; cases hexec
      exact Or.inl ⟨herr, rfl⟩
    · rw [exec_of_err (by exact herr) hclose hclear] at hexec
      cases hexec
      exact Or.inl ⟨herr, rfl⟩
  · rw [State.gate_of_err (by exact herr)]
    exact Or.inl ⟨herr, rfl⟩
  · by_cases hreset : a = .reset
    · subst hreset
      exact Or.inr ⟨rest, Or.inr h⟩
    · obtain ⟨herr', hcode⟩ := s.advance.hostAccess_error params hreset
      exact Or.inl ⟨herr'.trans herr, hcode⟩

end Sys2Proof.Machine
end

section
/-!
PROOFS on the trees the greedy procedure builds (spec/41_tree_builder.md R111 to R118) and on the lengths of their codes
(spec/42_code_table_generator.md R134).
-/

namespace Sys2Proof.Machine

open Sys2Proof.Config

/-! ### The Kraft equality -/

theorem kraftShare_cons (bit : Bool) (c : Option Bits) : kraftShare (c.map (bit :: ·)) = 1 / 2 * kraftShare c := by
  cases c with
  | none => simp [kraftShare]
  | some c => simp [kraftShare, pow_succ, mul_comm]

/-- A symbol's share halves at a node, on whichever side its leaf is (R134). -/
theorem kraftShare_path_node {l r : HuffTree} (w : Nat) {x : Symbol} (h : x ∈ l.leaves → x ∉ r.leaves) :
    kraftShare (path (.node w l r) x) = 1 / 2 * kraftShare (path l x) + 1 / 2 * kraftShare (path r x) := by
  cases hl : path l x with
  | none =>
    simp only [path, hl, kraftShare_cons]
    simp [kraftShare]
  | some p =>
    have hmem : x ∈ l.leaves := by
      by_contra hn
      rw [(path_eq_none_iff l x).mpr hn] at hl
      cases hl
    have hnode : path (.node w l r) x = (some p).map (false :: ·) := by simp only [path, hl, Option.map_some]
    rw [hnode, (path_eq_none_iff r x).mpr (h hmem), kraftShare_cons]
    simp [kraftShare]

/-- The shares under a tree without repeated symbols sum to 1: a leaf has it all, and a node gives each side half. -/
theorem sum_kraftShare_path {t : HuffTree} (hle : ∀ x ∈ t.leaves, x ≤ eos) (hnodup : t.leaves.Nodup) :
    ∑ i : Fin 257, kraftShare (path t (BitVec.ofNat 9 i.val)) = 1 := by
  induction t with
  | leaf x w =>
    have hx : x.toNat < 257 := toNat_lt_of_le_eos (hle x (by simp [HuffTree.leaves]))
    rw [Finset.sum_eq_single ⟨x.toNat, hx⟩]
    · simp [path, kraftShare]
    · intro i _ hi
      have hne : ¬ x = BitVec.ofNat 9 i.val := fun h => hi (Fin.ext ((eq_ofNat_iff_toNat_eq x i).mp h).symm)
      simp [path, hne, kraftShare]
    · simp
  | node w l r ihl ihr =>
    simp only [HuffTree.leaves, List.mem_append] at hle
    obtain ⟨hl, hr, hdisjoint⟩ := List.nodup_append.mp hnodup
    have hsplit (i : Fin 257) := kraftShare_path_node w (x := BitVec.ofNat 9 i.val)
      fun hmem hmem' => hdisjoint _ hmem _ hmem' rfl
    simp only [hsplit]
    rw [Finset.sum_add_distrib, ← Finset.mul_sum, ← Finset.mul_sum, ihl (fun x hx => hle x (Or.inl hx)) hl,
      ihr (fun x hx => hle x (Or.inr hx)) hr]
    norm_num

/-- Settles O53: a well-formed tree's leaves are symbols, none repeated. -/
theorem kraftEquality : Obligations.KraftEquality := fun t h =>
  have hwf := t.wellFormed_iff.mp h
  sum_kraftShare_path hwf.1 hwf.2

/-! ### Weights -/

/-- A merge takes two nodes out of the queue and appends their parent (R111). -/
theorem Merges.exists_parts {q q' : List HuffTree} (h : Merges q q') :
    ∃ (a b : HuffTree) (rest : List HuffTree), (a :: b :: rest).Perm q ∧ q' = rest ++ [.node (a.weight + b.weight) a b] := by
  obtain ⟨i, j, a, b, ha, -, hb, -, hq'⟩ := h
  have hparts : (a :: b :: (q.eraseIdx i).eraseIdx j).Perm q :=
    ((perm_cons_eraseIdx hb).cons a).trans (perm_cons_eraseIdx ha)
  rcases hq' with rfl | rfl
  · exact ⟨a, b, _, hparts, rfl⟩
  · exact ⟨b, a, _, (List.Perm.swap a b _).trans hparts, by rw [Nat.add_comm]⟩

/-- What the first queue has and every merge keeps, the last queue has. -/
theorem Huff.induct {f : FreqTable} {P : List HuffTree → Prop} (hfirst : P (leafQueue f))
    (hmerge : ∀ q q', Merges q q' → P q → P q') {t : HuffTree} (h : Huff f t) : P [t] := by
  have hreach : ∀ q, Relation.ReflTransGen Merges (leafQueue f) q → P q := by
    intro q hq
    induction hq with
    | refl => exact hfirst
    | tail _ hstep ih => exact hmerge _ _ hstep ih
  exact hreach [t] h

theorem exists_of_mem_leafQueue {f : FreqTable} {t : HuffTree} (h : t ∈ leafQueue f) :
    ∃ k < 257, t = .leaf (BitVec.ofNat 9 k) (freqAt f k) := by
  rw [leafQueue, zipIdx_freqTable] at h
  simp only [List.mem_filterMap, List.mem_map, List.mem_range, Option.ite_none_right_eq_some, Option.some.injEq] at h
  obtain ⟨_, ⟨k, hk, rfl⟩, -, rfl⟩ := h
  exact ⟨k, hk, rfl⟩

/-- R116 (c): leaves weigh their counts and nodes the sum of their children. -/
theorem Huff.weighs {f : FreqTable} {t : HuffTree} (h : Huff f t) : t.weighs f := by
  refine Huff.induct (P := fun q => ∀ x ∈ q, x.weighs f) ?_ ?_ h t (List.mem_singleton.mpr rfl)
  · intro x hx
    obtain ⟨k, hk, rfl⟩ := exists_of_mem_leafQueue hx
    have hnat : (BitVec.ofNat 9 k).toNat = k := Nat.mod_eq_of_lt (by omega)
    rw [HuffTree.weighs, hnat]
  · intro q q' hmerge hq
    obtain ⟨a, b, rest, hperm, rfl⟩ := hmerge.exists_parts
    have hparts : ∀ x ∈ a :: b :: rest, x.weighs f := fun x hx => hq x (hperm.mem_iff.mp hx)
    simp only [List.mem_append, List.mem_singleton]
    rintro x (hx | rfl)
    · exact hparts x (by simp [hx])
    · exact ⟨rfl, hparts a (by simp), hparts b (by simp)⟩

theorem freqTable_eq_map (f : FreqTable) : freqTable f = (List.range 257).map (freqAt f) := by
  have h := congrArg (List.map Prod.fst) (zipIdx_freqTable f)
  simpa [Function.comp_def] using h

/-- The queue's weights are the counts, those of 0 left out. -/
theorem sum_weight_leafQueue (f : FreqTable) : ((leafQueue f).map HuffTree.weight).sum = (freqTable f).sum := by
  rw [leafQueue, zipIdx_freqTable, List.filterMap_map, freqTable_eq_map]
  induction List.range 257 with
  | nil => rfl
  | cons k l ih =>
    by_cases hk : 0 < freqAt f k
    · simpa [hk, HuffTree.weight] using ih
    · simpa [hk, Nat.eq_zero_of_not_pos hk] using ih

/-- R116 (c): the root weighs the sum of all counts. -/
theorem Huff.weight_eq_sum {f : FreqTable} {t : HuffTree} (h : Huff f t) : t.weight = (freqTable f).sum := by
  have hsum := Huff.induct (P := fun q => (q.map HuffTree.weight).sum = (freqTable f).sum) (sum_weight_leafQueue f)
    (fun q q' hmerge hq => ?_) h
  · simpa using hsum
  · obtain ⟨a, b, rest, hperm, rfl⟩ := hmerge.exists_parts
    rw [← hq, ← (hperm.map HuffTree.weight).sum_eq]
    simp [HuffTree.weight]
    omega

/-! ### The shape of a built tree -/

theorem HuffTree.eq_leaf_of_length_leaves {t : HuffTree} (h : t.leaves.length = 1) : ∃ x w, t = .leaf x w := by
  cases t with
  | leaf x w => exact ⟨x, w, rfl⟩
  | node w l r =>
    have hl := l.length_leaves_pos
    have hr := r.length_leaves_pos
    simp only [HuffTree.leaves, List.length_append] at h
    omega

/-- R118: with no unit counted the tree is the sentinel's leaf. -/
theorem Huff.eq_leaf_eos {f : FreqTable} {t : HuffTree} (h : Huff f t) (hzero : ∀ k < 256, freqAt f k = 0) :
    t = .leaf eos 1 := by
  have honly : ∀ x ∈ t.leaves, x = eos := by
    intro x hx
    obtain ⟨hle, hpos⟩ := (h.mem_leaves x).mp hx
    have hlt := toNat_lt_of_le_eos hle
    have hge : ¬ x.toNat < 256 := fun hk => by rw [hzero _ hk] at hpos; cases hpos
    exact BitVec.eq_of_toNat_eq (show x.toNat = 256 by omega)
  have hnodup : t.leaves.Nodup := (t.wellFormed_iff.mp h.wellFormed).2
  have hlength : t.leaves.length = 1 := by
    have hle : t.leaves.length ≤ 1 := by
      simpa using (hnodup.subperm (l₂ := [eos]) fun x hx => List.mem_singleton.mpr (honly x hx)).length_le
    have hpos := t.length_leaves_pos
    omega
  obtain ⟨x, w, rfl⟩ := HuffTree.eq_leaf_of_length_leaves hlength
  obtain rfl : x = eos := honly x (by simp [HuffTree.leaves])
  have hweight : w = freqAt f 256 := h.weighs
  rw [hweight, freqAt_eos]

/-- R118: with a unit counted the tree has its leaf beside the sentinel's. -/
theorem Huff.isLeaf_eq_false {f : FreqTable} {t : HuffTree} (h : Huff f t) (hcounted : ∃ k < 256, freqAt f k ≠ 0) :
    t.isLeaf = false := by
  obtain ⟨k, hk, hne⟩ := hcounted
  cases t with
  | node => rfl
  | leaf x w =>
    have hnat : (BitVec.ofNat 9 k).toNat = k := Nat.mod_eq_of_lt (by omega)
    have hmem : BitVec.ofNat 9 k ∈ (HuffTree.leaf x w).leaves := by
      refine (h.mem_leaves _).mpr ⟨?_, by rw [hnat]; exact Nat.pos_of_ne_zero hne⟩
      rw [BitVec.le_def, hnat]
      exact Nat.le_of_lt hk
    have heos := h.eos_mem_leaves
    simp only [HuffTree.leaves, List.mem_singleton] at hmem heos
    have h256 : k = 256 := by rw [← hnat, hmem, ← heos]; rfl
    omega

/-- Settles O54: each part is an invariant of the queue, or follows from which leaves there are. -/
theorem builtTreeProperties : Obligations.BuiltTreeProperties := by
  unfold Obligations.BuiltTreeProperties
  intro f t h
  obtain ⟨-, hnodes, -⟩ := headerLength t
  obtain ⟨-, hdepth, -⟩ := storedTreeBounds t h.nodes_le
  rw [h.leaves_perm.length_eq] at hnodes
  exact ⟨h.leaves_perm, h.complete, h.weighs, h.weight_eq_sum, hnodes, h.nodes_le, hdepth, h.eq_leaf_eos, h.isLeaf_eq_false⟩

/-! ### Every choice within Huff is a decision -/

/-- The policy can pick any node of lowest weight (R113). -/
theorem exists_pickPosition {q : List HuffTree} {i : Nat} {a : HuffTree} (ha : q[i]? = some a)
    (hleast : ∀ x ∈ q, a.weight ≤ x.weight) : ∃ pick, pickPosition pick q = i := by
  have hmem : a ∈ q := List.mem_of_getElem? ha
  obtain ⟨x, hx, hweight⟩ := exists_lowestWeight (List.ne_nil_of_mem hmem)
  have hlowest : a.weight = lowestWeight q := Nat.le_antisymm (hweight ▸ hleast x hx) (lowestWeight_le hmem)
  obtain ⟨pick, hlt, hget⟩ := List.mem_iff_getElem.mp (mem_lowestPositions.mpr ⟨a, ha, hlowest⟩)
  exact ⟨pick, by rw [pickPosition, Nat.mod_eq_of_lt hlt, List.getD_eq_getElem _ _ hlt, hget]⟩

/-- Every merge of the relation is one round of TBUILD under some decision (R111, R112). -/
theorem Merges.exists_choice {q q' : List HuffTree} (h : Merges q q') : ∃ c, mergeOnce c q = q' := by
  obtain ⟨i, j, a, b, ha, hleasta, hb, hleastb, hq'⟩ := h
  obtain ⟨first, rfl⟩ := exists_pickPosition ha hleasta
  obtain ⟨second, rfl⟩ := exists_pickPosition hb hleastb
  rcases hq' with rfl | rfl
  · exact ⟨⟨first, second, false⟩, by simp only [mergeOnce, ha, hb]; rfl⟩
  · exact ⟨⟨first, second, true⟩, by simp only [mergeOnce, ha, hb]; rfl⟩

/-- The loop at merge `k + 1` under some decisions is the loop at merge `k` under the later ones. -/
theorem mergeAll_succ (choice : Nat → TieChoice) (fuel k : Nat) (q : List HuffTree) :
    mergeAll choice fuel (k + 1) q = mergeAll (fun n => choice (n + 1)) fuel k q := by
  induction fuel generalizing k q with
  | zero => rfl
  | succ fuel ih => simp only [mergeAll, ih]

/-- The decisions that take `c` at merge 0 and then those of `later`. -/
def consChoice (c : TieChoice) (later : Nat → TieChoice) : Nat → TieChoice
  | 0 => c
  | n + 1 => later n

theorem Merges.two_le_length {q q' : List HuffTree} (h : Merges q q') : 2 ≤ q.length := by
  obtain ⟨a, b, rest, hperm, -⟩ := h.exists_parts
  rw [← hperm.length_eq]
  simp

theorem mergeAll_consChoice (c : TieChoice) (later : Nat → TieChoice) (fuel : Nat) {q : List HuffTree}
    (hq : 2 ≤ q.length) : mergeAll (consChoice c later) (fuel + 1) 0 q = mergeAll later fuel 0 (mergeOnce c q) := by
  rw [mergeAll_of_two_le_length _ _ _ hq, mergeAll_succ]
  rfl

/-- Any merges down to one tree are the loop's under some decisions (R113). -/
theorem exists_mergeAll {q : List HuffTree} {t : HuffTree} (h : Relation.ReflTransGen Merges q [t]) :
    ∃ choice, ∀ fuel, q.length ≤ fuel + 1 → mergeAll choice fuel 0 q = [t] := by
  induction h using Relation.ReflTransGen.head_induction_on with
  | refl => exact ⟨fun _ => default, fun fuel _ => mergeAll_singleton _ fuel 0 t⟩
  | head hmerge _ ih =>
    obtain ⟨later, hlater⟩ := ih
    obtain ⟨c, rfl⟩ := hmerge.exists_choice
    refine ⟨consChoice c later, fun fuel hfuel => ?_⟩
    have htwo := hmerge.two_le_length
    have hlength := hmerge.length
    obtain ⟨fuel, rfl⟩ := Nat.exists_eq_succ_of_ne_zero (show fuel ≠ 0 by omega)
    rw [mergeAll_consChoice c later fuel htwo, hlater fuel (by omega)]

/-- Settles O55: the loop runs within Huff, and each of the relation's merges is a round of it. -/
theorem policiesAreHuff : Obligations.PoliciesAreHuff := by
  unfold Obligations.PoliciesAreHuff
  refine fun f => ⟨fun choice => huff_buildTree choice f, fun t h => ?_⟩
  obtain ⟨choice, hrun⟩ := exists_mergeAll h
  exact ⟨choice, by rw [buildTree, hrun _ (Nat.le_succ _), List.headD_cons]⟩

/-! ### The default policy -/

/-- `a` is the earliest of the lowest-weight nodes of `p ++ a :: r`. -/
def EarliestLowest (p : List HuffTree) (a : HuffTree) (r : List HuffTree) : Prop :=
  (∀ x ∈ p, a.weight < x.weight) ∧ ∀ x ∈ r, a.weight ≤ x.weight

theorem exists_earliestLowest {q : List HuffTree} (hq : q ≠ []) : ∃ p a r, q = p ++ a :: r ∧ EarliestLowest p a r := by
  obtain ⟨x, hx, hweight⟩ := exists_lowestWeight hq
  obtain ⟨a, ha⟩ := Option.isSome_iff_exists.mp
    (List.find?_isSome (p := fun y => decide (y.weight = lowestWeight q)) |>.mpr ⟨x, hx, by simpa using hweight⟩)
  obtain ⟨hlowest, p, r, rfl, hbefore⟩ := List.find?_eq_some_iff_append.mp ha
  have hlowest : a.weight = lowestWeight (p ++ a :: r) := by simpa using hlowest
  refine ⟨p, a, r, rfl, fun y hy => ?_, fun y hy => hlowest ▸ lowestWeight_le (by simp [hy])⟩
  have hne : y.weight ≠ lowestWeight (p ++ a :: r) := by simpa using hbefore y hy
  have hle : lowestWeight (p ++ a :: r) ≤ y.weight := lowestWeight_le (by simp [hy])
  omega

section
variable {p r : List HuffTree} {a : HuffTree} (h : EarliestLowest p a r)
include h

theorem EarliestLowest.weight_le {x : HuffTree} (hx : x ∈ p ++ r) : a.weight ≤ x.weight := by
  rcases List.mem_append.mp hx with hx | hx
  · exact Nat.le_of_lt (h.1 x hx)
  · exact h.2 x hx

theorem EarliestLowest.lowestWeight_eq : lowestWeight (p ++ a :: r) = a.weight := by
  obtain ⟨x, hx, hweight⟩ := exists_lowestWeight (q := p ++ a :: r) (by simp)
  have hle : a.weight ≤ x.weight := by
    rcases List.mem_append.mp hx with hx | hx
    · exact Nat.le_of_lt (h.1 x hx)
    · rcases List.mem_cons.mp hx with rfl | hx
      · exact Nat.le_refl _
      · exact h.2 x hx
  exact Nat.le_antisymm (lowestWeight_le (by simp)) (hweight ▸ hle)

/-- Pick 0 is the earliest (R114). -/
theorem EarliestLowest.pickPosition_zero : pickPosition 0 (p ++ a :: r) = p.length := by
  have hbefore : (p.zipIdx.filterMap fun (t, i) => if t.weight = a.weight then some i else none) = [] := by
    rw [List.filterMap_eq_nil_iff]
    rintro ⟨x, i⟩ hx
    have hmem : x ∈ p := List.mem_of_getElem? (List.mk_mem_zipIdx_iff_getElem?.mp hx)
    exact if_neg (Nat.ne_of_gt (h.1 x hmem))
  rw [pickPosition, Nat.zero_mod, lowestPositions, h.lowestWeight_eq, List.zipIdx_append, List.filterMap_append, hbefore]
  simp

end

theorem getElem?_length_append (p r : List HuffTree) (a : HuffTree) : (p ++ a :: r)[p.length]? = some a := by simp

theorem eraseIdx_length_append (p r : List HuffTree) (a : HuffTree) : (p ++ a :: r).eraseIdx p.length = p ++ r := by
  rw [List.eraseIdx_append_of_length_le (Nat.le_refl _), Nat.sub_self, List.eraseIdx_cons_zero]

/-- A round under the default policy, in terms of what it removes (R114). -/
theorem mergeOnce_default {p r p' r' : List HuffTree} {a b : HuffTree} (ha : EarliestLowest p a r)
    (hrest : p ++ r = p' ++ b :: r') (hb : EarliestLowest p' b r') :
    mergeOnce ⟨0, 0, false⟩ (p ++ a :: r) = p' ++ r' ++ [.node (a.weight + b.weight) a b] := by
  simp only [mergeOnce, ha.pickPosition_zero, eraseIdx_length_append, hrest, hb.pickPosition_zero, getElem?_length_append]
  rfl

theorem exists_mergeOnce_default {q : List HuffTree} (hq : 2 ≤ q.length) :
    ∃ p r p' r' a b, q = p ++ a :: r ∧ EarliestLowest p a r ∧ p ++ r = p' ++ b :: r' ∧ EarliestLowest p' b r' ∧
      mergeOnce ⟨0, 0, false⟩ q = p' ++ r' ++ [.node (a.weight + b.weight) a b] := by
  obtain ⟨p, a, r, rfl, ha⟩ := exists_earliestLowest (q := q) (by rintro rfl; simp at hq)
  have hne : p ++ r ≠ [] := by
    intro hnil
    obtain ⟨rfl, rfl⟩ := List.append_eq_nil_iff.mp hnil
    simp at hq
  obtain ⟨p', b, r', hrest, hb⟩ := exists_earliestLowest hne
  exact ⟨p, r, p', r', a, b, rfl, ha, hrest, hb, mergeOnce_default ha hrest hb⟩

/-- The default policy keeps every tree of the queue light on the left. -/
theorem mergeOnce_default_lightLeft {q : List HuffTree} (hq : 2 ≤ q.length) (h : ∀ x ∈ q, x.lightLeft) :
    ∀ x ∈ mergeOnce ⟨0, 0, false⟩ q, x.lightLeft := by
  obtain ⟨p, r, p', r', a, b, rfl, ha, hrest, -, hmerge⟩ := exists_mergeOnce_default hq
  have hpr : ∀ x ∈ p' ++ b :: r', x.lightLeft := by
    intro x hx
    rw [← hrest] at hx
    exact h x (by simpa using (List.mem_append.mp hx).imp_right Or.inr)
  have hb : b ∈ p ++ r := by simp [hrest]
  rw [hmerge]
  simp only [List.mem_append, List.mem_singleton]
  rintro x ((hx | hx) | rfl)
  · exact hpr x (by simp [hx])
  · exact hpr x (by simp [hx])
  · exact ⟨ha.weight_le hb, h a (by simp), hpr b (by simp)⟩

/-- What every round keeps, the loop keeps. -/
theorem mergeAll_induct {P : List HuffTree → Prop} {choice : Nat → TieChoice}
    (hround : ∀ k q, 2 ≤ q.length → P q → P (mergeOnce (choice k) q)) (fuel k : Nat) {q : List HuffTree} (h : P q) :
    P (mergeAll choice fuel k q) := by
  induction fuel generalizing k q with
  | zero => exact h
  | succ fuel ih =>
    rw [mergeAll]
    split
    · exact h
    · exact ih (k + 1) (hround k q (by omega) h)

theorem lightLeft_of_mem_leafQueue {f : FreqTable} {t : HuffTree} (h : t ∈ leafQueue f) : t.lightLeft := by
  obtain ⟨k, -, rfl⟩ := exists_of_mem_leafQueue h
  trivial

theorem buildTree_default_lightLeft (f : FreqTable) : (buildTree (defaults.tie f) f).lightLeft := by
  have hqueue := mergeAll_induct (P := fun q => ∀ x ∈ q, x.lightLeft) (choice := defaults.tie f)
    (fun _ _ => mergeOnce_default_lightLeft) (leafQueue f).length 0 (q := leafQueue f)
    (fun _ => lightLeft_of_mem_leafQueue)
  rw [buildTree]
  cases hq : mergeAll (defaults.tie f) (leafQueue f).length 0 (leafQueue f) with
  | nil => trivial
  | cons t q => exact hqueue t (by rw [hq]; exact List.mem_cons_self)

/-- Settles O56: pick 0 is the earliest of the lowest, and the first removed weighs no more than the second. -/
theorem defaultPolicyOrder : Obligations.DefaultPolicyOrder := by
  unfold Obligations.DefaultPolicyOrder
  refine ⟨fun q hq => ?_, buildTree_default_lightLeft⟩
  obtain ⟨p, r, p', r', a, b, hq', ha, hrest, hb, hmerge⟩ := exists_mergeOnce_default hq
  exact ⟨p, r, p', r', a, b, hq', ha.1, ha.2, hrest, hb.1, hb.2, hmerge⟩

end Sys2Proof.Machine
end
